-- ==== Sys2Proof/Word.lean ====
section
/-! DEFINITION. The two word types of the block: every value of the spec is an unsigned bit string (R10). -/

namespace Sys2Proof

/-- A 64-bit value: a lane, a host register, a command word (R7, R70). -/
abbrev Word := BitVec 64

/-- An 8-bit value: a byte of the state buffer, `offset`, `rate` or `delim` (R13, R20). -/
abbrev Byte := BitVec 8

end Sys2Proof
end

