-- ==== Sys2Proof/Config.lean ====
section
/-! DEFINITION. The named parameters of R9, which an implementation or its platform fixes.
They have no body, so no proof can rest on a value of one of them (R9: "which no rule's result depends on").
No next state reads one of them: `HOST_BAD_ACCESS` stands only in the stop that a bad access comes to (R57, log
entry 3), the latencies are for the informative cost model (R206, log entry 14), the other two for a platform of several
engines (R183, log entry 8). -/

namespace Sys2Proof

/-- `BASE_ADDR` of engine `k`: the host address of its register offset 0x00 (R9, R56, R183). -/
opaque Config.baseAddr : Nat → Nat

/-- `PERM_LATENCY`: the time one permutation takes (R9, R112). -/
opaque Config.permLatency : Nat

/-- `CMD_LATENCY`: the time a command takes apart from its permutations (R9, R206). -/
opaque Config.cmdLatency : Nat

/-- `NUM_ENGINES`: how many independent copies of the block the platform holds (R9, R183). -/
opaque Config.numEngines : Nat

/-- `HOST_BAD_ACCESS`: the bus response, as the platform numbers its responses, to a host access at an offset in the
register window and of a width in bits that are not 64-bit and naturally aligned (R9, R57). The spec leaves it open
(D3), so it may differ from one such access to another. -/
opaque Config.hostBadAccess : (offset width : Nat) → Nat

end Sys2Proof
end

