-- ==== Sys2Proof/Syntax.lean ====
section
/-! DEFINITION. The host commands: one constructor per row of the opcode map (R72).
The operands are the raw fields of the command word, as wide as the word gives them (R70, R71). -/

namespace Sys2Proof

/-- A decoded command (R72). The block has no other instruction (R2, R78). -/
inductive Instr where
  /-- INIT rate, delim: start a new hash computation (R133). -/
  | init (rate : Byte) (delim : Byte)
  /-- ABSORB n: absorb n bytes from DIN (R134). -/
  | absorb (n : BitVec 4)
  /-- PAD: pad-and-transition (R135). -/
  | pad
  /-- SQUEEZE n: squeeze n bytes into DOUT (R136). -/
  | squeeze (n : BitVec 4)
  /-- FINAL n: squeeze the last n bytes and consume the computation (R137). -/
  | final (n : BitVec 4)
deriving DecidableEq, Repr

end Sys2Proof
end

