-- ==== Sys2Proof/WellFormed.lean ====
section
/-! DEFINITION. Which commands have legal operand values: those the assembler accepts (R74, R75, R76, R80).
An ill-formed command still decodes; writing it to CMD raises BAD_RATE or BAD_COUNT (R171). -/

namespace Sys2Proof

/-- Rate 1..199 for INIT (R75), any delimiter (R76), count 0..8 for ABSORB, SQUEEZE and FINAL (R74). -/
def Instr.wellFormed : Instr → Bool
  | .init rate _ => decide (1 ≤ rate.toNat ∧ rate.toNat ≤ 199)
  | .absorb n => decide (n.toNat ≤ 8)
  | .pad => true
  | .squeeze n => decide (n.toNat ≤ 8)
  | .final n => decide (n.toNat ≤ 8)

end Sys2Proof
end

