-- ==== Sys2Proof/Decode.lean ====
section
/-! DEFINITION. From the 64-bit value written to CMD to a command or a named rejection, and back
(R70 to R77, R79, R82). -/

namespace Sys2Proof

/-- Why a command word is illegal: the three cases (a), (b), (c) of R77. All raise ILLEGAL_COMMAND. -/
inductive IllegalReason where
  /-- (a) OP is 0x0 or 0x6..0xF. -/
  | opcode
  /-- (b) RES, bits 63:24, is nonzero. -/
  | reserved
  /-- (c) a field that R72 marks "must be 0" for this OP is nonzero. -/
  | mustBeZero
deriving DecidableEq, Repr

/-- OP, bits 3:0 (R70). -/
def opField (c : Word) : BitVec 4 := c.extractLsb' 0 4

/-- CNT, bits 7:4 (R70). -/
def cntField (c : Word) : BitVec 4 := c.extractLsb' 4 4

/-- RATE, bits 15:8 (R70). -/
def rateField (c : Word) : Byte := c.extractLsb' 8 8

/-- DELIM, bits 23:16 (R70). -/
def delimField (c : Word) : Byte := c.extractLsb' 16 8

/-- RES, bits 63:24 (R70). -/
def resField (c : Word) : BitVec 40 := c.extractLsb' 24 40

/-- Accept `i` when the fields that must be zero are zero (R77 (b) and (c)). -/
def accept (c : Word) (zero : Bool) (i : Instr) : Except IllegalReason Instr :=
  if resField c ≠ 0 then .error .reserved
  else if zero then .ok i
  else .error .mustBeZero

/-- The command a CMD value spells, in every mode alike (R72, R77, R79, R82). -/
def decode (c : Word) : Except IllegalReason Instr :=
  let noCnt := cntField c == 0
  let noRateDelim := rateField c == 0 && delimField c == 0
  match (opField c).toNat with
  | 1 => accept c noCnt (.init (rateField c) (delimField c))
  | 2 => accept c noRateDelim (.absorb (cntField c))
  | 3 => accept c (noCnt && noRateDelim) .pad
  | 4 => accept c noRateDelim (.squeeze (cntField c))
  | 5 => accept c noRateDelim (.final (cntField c))
  | _ => .error .opcode

/-- A command word from its fields, RES zero (R70). -/
def commandWord (delim rate : Byte) (cnt op : BitVec 4) : Word :=
  (delim ++ rate ++ cnt ++ op).zeroExtend 64

/-- The CMD value of a command (R72, R80). -/
def encode : Instr → Word
  | .init rate delim => commandWord delim rate 0 1
  | .absorb n => commandWord 0 0 n 2
  | .pad => commandWord 0 0 0 3
  | .squeeze n => commandWord 0 0 n 4
  | .final n => commandWord 0 0 n 5

/-- The command the decoder reads from a word of the opcode table: `nbits` bits of `w`, the rest zero.
A value wider than CMD is no command word. -/
def decodeTableWord (nbits w : Nat) : Option Instr :=
  if w % 2 ^ nbits < 2 ^ 64 then (decode (BitVec.ofNat 64 (w % 2 ^ nbits))).toOption else none

end Sys2Proof
end

