-- ==== Sys2Proof/Machine/State.lean ====
section
/-! DEFINITION. The state of the block as plain data (R20), and beside it what the one host still has to do
and has read (R18, R19). Every piece of R20's list is a field; "Nothing else is state" (R20), so the two host
fields are the model's own (DESIGN CHOICE, log entry 1). -/

namespace Sys2Proof.Machine

/-- The state buffer `S`: the bytes that are not zero, by rising index (R25). An index of 0..199 that is not
listed reads as zero, which is what reset and INIT leave (R26, R35; DESIGN CHOICE of form, log entry 6). Indices
from 200 on do not exist (R50). -/
abbrev Memory := List Host.Cell

/-- The five modes (R32). The codes 5 to 7 "never occur" (R29; DEDUCED, log entry 9). -/
inductive Mode where
  /-- 0: no computation exists, as after reset. -/
  | idle
  /-- 1: absorbing input. -/
  | absorbing
  /-- 2: padded, squeezing output. -/
  | squeezing
  /-- 3: after FINAL. -/
  | consumed
  /-- 4: a contract violation was detected (R174). -/
  | fault
deriving DecidableEq, Repr

/-- What FCODE can hold (R171). Its codes 7..15 are "never raised", so no constructor stands for one
(DEDUCED, log entry 9). -/
inductive FaultCode where
  /-- 0: no fault. -/
  | none
  /-- 1: the word spells no command (R77). -/
  | illegalCommand
  /-- 2: INIT with a rate outside 1..199 (R75). -/
  | badRate
  /-- 3: a byte count above 8 (R74). -/
  | badCount
  /-- 4: a command other than INIT in Idle. -/
  | notConfigured
  /-- 5: the command is not permitted in the current mode. -/
  | order
  /-- 6: a command other than INIT in Consumed. -/
  | consumed
deriving DecidableEq, Repr

/-- One action of the host (R19, R80). `offset` is relative to BASE_ADDR (R56) and `width` is in bits (R57). -/
inductive HostAction where
  /-- Read a register. -/
  | read (offset width : Nat)
  /-- Write a register. -/
  | write (offset width : Nat) (value : Word)
  /-- Assert reset (R200). -/
  | reset
deriving DecidableEq, Repr

/-- The whole state. -/
structure State where
  /-- The 200-byte state buffer `S[0..199]` (R25). -/
  S : Memory
  /-- `offset`: the next byte position in the rate window (R17, R20). -/
  offset : Byte
  /-- `rate`: the size of the rate window in bytes (R20). -/
  rate : Byte
  /-- `delim`: the delimiter byte (R20). -/
  delim : Byte
  /-- `mode` (R32). -/
  mode : Mode
  /-- `DIN`, the data-in register (R27). -/
  din : Word
  /-- `DOUT`, the data-out register (R28). -/
  dout : Word
  /-- `FCODE`, the fault code (R171). -/
  fcode : FaultCode
  /-- `FCMD`, the faulting command word (R30). -/
  fcmd : Word
  /-- The host's accesses still to be performed, in host order (R59, R63). The model's own field
  (DESIGN CHOICE, log entry 1). -/
  pending : List HostAction
  /-- The values the host has read, in order: the observation of R19. The model's own field
  (DESIGN CHOICE, log entry 1). -/
  observed : List Word
deriving DecidableEq, Repr

/-- Why a step can stop. No command raises one of these in a state that a run from reset reaches; the contract
violations of R171 are no stops but next states in mode Fault (R174). -/
inductive Fault where
  /-- Raised by a host access that is not 64 bits wide and 8-byte aligned: the model gives it no move (R57), and
  `response` is what the bus answers, the parameter HOST_BAD_ACCESS (R9). The spec says that this "errs toward proving",
  so it counts as unsafe (DESIGN CHOICE, log entry 3). -/
  | hostBadAccess (response : Nat)
  /-- Raised by a host access at an offset outside the 0x40-byte register window (R56, R61): no register of the
  block stands there. Safe: the model stops (DESIGN CHOICE, log entry 4). -/
  | outsideWindow
  /-- Raised by an operation on the state buffer at an index outside 0..199, which does not exist (R14, R50).
  Safe: only states that break the invariants of R33 come to it (DEDUCED, log entry 5). -/
  | noSuchByte
  /-- Raised by a platform action on an engine, or at a bus address, that the platform does not have (R183).
  Safe: the model stops (DESIGN CHOICE, log entry 8). -/
  | noSuchEngine
deriving DecidableEq, Repr

/-- Why a command is refused. No arm of `exec` uses it: every command has its meaning. -/
inductive Refusal where
  /-- Raised by an arm of `exec` whose command has no meaning yet. Safe: the model stops. -/
  | notModelled (mnemonic : String)
deriving DecidableEq, Repr

/-- The state after reset and at power-up, every piece of it as the spec gives it (R35, R200). The host has
nothing to do and has read nothing. -/
def State.reset : State where
  S := []
  offset := 0
  rate := 0
  delim := 0
  mode := .idle
  din := 0
  dout := 0
  fcode := .none
  fcmd := 0
  pending := []
  observed := []

end Sys2Proof.Machine
end

