-- ==== Sys2Proof/Machine/Ops.lean ====
section
/-! DEFINITION. The shared operations: the state buffer's bytes (R14, R50), the named register updates, fault entry
and reset (R174, R177, R200), and the checks that open every command (R173). -/

namespace Sys2Proof.Machine

/-- Go on with `f` where `o` answers a next value; a stop stays a stop. -/
def andThen {α β : Type} (o : Host.Outcome α Fault Refusal) (f : α → Host.Outcome β Fault Refusal) :
    Host.Outcome β Fault Refusal :=
  match o with
  | .next a => f a
  | .fault r => .fault r
  | .refused r => .refused r

/-! ### The state buffer -/

/-- The byte at index `i`; zero where nothing is listed. -/
def Memory.read : Memory → Nat → Byte
  | [], _ => 0
  | (j, b) :: rest, i => if i = j then b else Memory.read rest i

/-- List byte `v` at index `i` in front of `rest`, unless it is what an unlisted index reads as. -/
def Memory.put (i : Nat) (v : Byte) (rest : Memory) : Memory :=
  if v = 0 then rest else (i, v) :: rest

/-- Set the byte at index `i` to `v`, keeping the canonical form. -/
def Memory.write : Memory → Nat → Byte → Memory
  | [], i, v => Memory.put i v []
  | (j, b) :: rest, i, v =>
    if i < j then Memory.put i v ((j, b) :: rest)
    else if i = j then Memory.put i v rest
    else (j, b) :: Memory.write rest i v

/-- The `n` bytes `f i, f (i+1), …` at the indices from `i` on. -/
def Memory.fill (f : Nat → Byte) : Nat → Nat → Memory
  | _, 0 => []
  | i, n + 1 => Memory.put i (f i) (Memory.fill f (i + 1) n)

/-- The buffer whose byte `i` is `f i`, for every `i` of 0..199. -/
def Memory.ofFn (f : Nat → Byte) : Memory := Memory.fill f 0 200

/-- The canonical form: indices rise strictly, all lie in 0..199, and no listed byte is zero. -/
abbrev Memory.wf (m : Memory) : Prop :=
  m.Pairwise (fun a b => a.1 < b.1) ∧ ∀ c ∈ m, c.1 < 200 ∧ c.2 ≠ 0

/-- `MemRead(i, 1)` of R14. An index outside 0..199 does not exist. -/
def readByte (i : Nat) (s : State) : Host.Outcome Byte Fault Refusal :=
  if i < 200 then .next (s.S.read i) else .fault .noSuchByte

/-- `MemWrite(i, 1, v)` of R14. An index outside 0..199 does not exist. -/
def writeByte (i : Nat) (v : Byte) (s : State) : Host.Outcome State Fault Refusal :=
  if i < 200 then .next { s with S := s.S.write i v } else .fault .noSuchByte

/-! ### Register updates -/

/-- The host's write of DIN (R27). -/
def State.setDin (v : Word) (s : State) : State := { s with din := v }

/-- SQUEEZE's and FINAL's write of DOUT (R28). -/
def State.setDout (v : Word) (s : State) : State := { s with dout := v }

/-- A change of mode alone (R138). -/
def State.setMode (m : Mode) (s : State) : State := { s with mode := m }

/-- INIT's fresh computation: the buffer zeroed, the cursor at 0, the parameters set, DOUT zeroed (R133). -/
def State.begin (rt dl : Byte) (s : State) : State :=
  { s with S := [], offset := 0, rate := rt, delim := dl, dout := 0, mode := .absorbing }

/-- The host has read the value `v` (R19). -/
def State.observe (v : Word) (s : State) : State := { s with observed := s.observed ++ [v] }

/-- The host's list of accesses becomes `l`. -/
def State.setPending (l : List HostAction) (s : State) : State := { s with pending := l }

/-! ### Faults and reset -/

/-- Fault entry for the command word `c` with code `f` (R174): nothing else changes. -/
def enterFault (f : FaultCode) (c : Word) (s : State) : State :=
  { s with fcode := f, fcmd := c, mode := .fault }

/-- Reset, the only way out of Fault (R177, R200): every piece of the block's state takes its reset value.
What the host still has to do and has read is the host's and stays. -/
def resetBlock (s : State) : State :=
  { State.reset with pending := s.pending, observed := s.observed }

/-- The code of the first check that fails, in the order listed (R173). -/
def firstFailing : List (Bool × FaultCode) → Option FaultCode
  | [] => none
  | (failed, f) :: rest => if failed then some f else firstFailing rest

/-- A command: ignored in Fault (R176); refused by the first failing check with no other effect (R173 to R175);
otherwise its effect. `c` is the CMD value. -/
def command (c : Word) (checks : List (Bool × FaultCode)) (s : State)
    (effect : State → Host.Outcome State Fault Refusal) : Host.Outcome State Fault Refusal :=
  if s.mode = .fault then .next s
  else match firstFailing checks with
    | some f => .next (enterFault f c s)
    | none => effect s

/-- A CMD value that spells no command: ignored in Fault, otherwise ILLEGAL_COMMAND (R77, R171, R176). -/
def illegalCommand (c : Word) (s : State) : Host.Outcome State Fault Refusal :=
  command c [(true, .illegalCommand)] s .next

end Sys2Proof.Machine
end

