-- ==== Sys2Proof/Machine/Operands.lean ====
section
/-! DEFINITION. The commands' operands: the legal rates and counts (R74, R75) and the bytes of the two data
registers, byte 0 first and least significant (R54). -/

namespace Sys2Proof.Machine

/-- RATE is legal for INIT: 1..199 (R75). -/
def legalRate (rt : Byte) : Bool := decide (1 ≤ rt.toNat ∧ rt.toNat ≤ 199)

/-- CNT is legal for ABSORB, SQUEEZE and FINAL: 0..8 (R74). -/
def legalCount (n : BitVec 4) : Bool := decide (n.toNat ≤ 8)

/-- Byte `k` of a 64-bit value: bits `8k+7:8k` (R54). -/
def byteOf (w : Word) (k : Nat) : Byte := w.extractLsb' (8 * k) 8

/-- The first `n` bytes of a 64-bit value, byte 0 first: what ABSORB takes from DIN (R54, R134). -/
def bytesOf (w : Word) (n : Nat) : List Byte := (List.range n).map (byteOf w)

/-- The 64-bit value whose byte `k` is `f k` for `k < n` and zero above. -/
def wordOfFn (f : Nat → Byte) : Nat → Word
  | 0 => 0
  | n + 1 => wordOfFn f n ||| ((f n).zeroExtend 64 <<< (8 * n))

/-- The 64-bit value with the listed bytes, byte 0 first, and zero above: DOUT after a squeeze (R28, R54). -/
def wordOfBytes (bs : List Byte) : Word := wordOfFn (fun k => bs.getD k 0) bs.length

end Sys2Proof.Machine
end

