-- ==== Sys2Proof/Machine/Permutation.lean ====
section
/-! DEFINITION. The permutation engine: Keccak-f[1600] on 25 lanes (R100 to R108) and the lane view of the state
buffer (R51, R52). The spec takes the constants and index choices of R51 and R102 to R108 from general knowledge of
FIPS 202 (TESTED by the spec's writer, log entry 10). -/

namespace Sys2Proof.Machine

/-- Five lanes of one row `y`, by column `x` (R100). -/
structure Row where
  (x0 x1 x2 x3 x4 : Word)
deriving DecidableEq, Repr

/-- The 25 lanes `A[x,y]`, by row `y` (R100). -/
structure Lanes where
  (y0 y1 y2 y3 y4 : Row)
deriving DecidableEq, Repr

/-- The lane of column `x` in a row. -/
def Row.lane (r : Row) : Fin 5 → Word
  | 0 => r.x0
  | 1 => r.x1
  | 2 => r.x2
  | 3 => r.x3
  | 4 => r.x4

/-- Row `y`. -/
def Lanes.row (A : Lanes) : Fin 5 → Row
  | 0 => A.y0
  | 1 => A.y1
  | 2 => A.y2
  | 3 => A.y3
  | 4 => A.y4

/-- The lane `A[x,y]` (R100). -/
def Lanes.lane (A : Lanes) (x y : Fin 5) : Word := (A.row y).lane x

/-- The row whose lane of column `x` is `f x`. -/
def Row.ofFn (f : Fin 5 → Word) : Row := ⟨f 0, f 1, f 2, f 3, f 4⟩

/-- The lanes with `A[x,y] = f x y`. -/
def Lanes.ofFn (f : Fin 5 → Fin 5 → Word) : Lanes :=
  ⟨.ofFn (f · 0), .ofFn (f · 1), .ofFn (f · 2), .ofFn (f · 3), .ofFn (f · 4)⟩

/-- `rotl64(v, n)`, with the amount taken modulo 64 (R12). -/
def rotl64 (v : Word) (n : Nat) : Word := (v <<< (n % 64)) ||| (v >>> ((64 - n % 64) % 64))

/-! ### The five steps of a round -/

/-- `C[x]`, the parity of column `x` (R102). -/
def columnParity (A : Lanes) (x : Fin 5) : Word :=
  A.lane x 0 ^^^ A.lane x 1 ^^^ A.lane x 2 ^^^ A.lane x 3 ^^^ A.lane x 4

/-- `D[x]`, from the parities of the columns beside `x` (R102). -/
def parityMix (C : Row) (x : Fin 5) : Word := C.lane (x - 1) ^^^ rotl64 (C.lane (x + 1)) 1

/-- theta, the column-parity mix (R102). -/
def theta (A : Lanes) : Lanes :=
  let C := Row.ofFn (columnParity A)
  let D := Row.ofFn (parityMix C)
  Lanes.ofFn fun x y => A.lane x y ^^^ D.lane x

/-- Row `y` of the table of rotation offsets, by column `x` (R104). -/
def rhoRow : Fin 5 → List Nat
  | 0 => [0, 1, 62, 28, 27]
  | 1 => [36, 44, 6, 55, 20]
  | 2 => [3, 10, 43, 25, 39]
  | 3 => [41, 45, 15, 21, 8]
  | 4 => [18, 2, 61, 56, 14]

/-- `RHO[x,y]` (R104). -/
def rhoOffset (x y : Fin 5) : Nat := (rhoRow y).getD x.val 0

/-- rho, the lane rotation (R103). -/
def rho (A : Lanes) : Lanes := Lanes.ofFn fun x y => rotl64 (A.lane x y) (rhoOffset x y)

/-- pi, the lane transposition (R105). -/
def pi (A : Lanes) : Lanes := Lanes.ofFn fun x y => A.lane (x + 3 * y) x

/-- chi, the non-linear row mix (R106). -/
def chi (A : Lanes) : Lanes :=
  Lanes.ofFn fun x y => A.lane x y ^^^ (~~~ A.lane (x + 1) y &&& A.lane (x + 2) y)

/-- Row `r` of the table of R108, which sets `RC[r]` beside `RC[r + 12]`. -/
def roundConstantRow : Nat → Word × Word
  | 0 => (0x0000000000000001, 0x000000008000808B)
  | 1 => (0x0000000000008082, 0x800000000000008B)
  | 2 => (0x800000000000808A, 0x8000000000008089)
  | 3 => (0x8000000080008000, 0x8000000000008003)
  | 4 => (0x000000000000808B, 0x8000000000008002)
  | 5 => (0x0000000080000001, 0x8000000000000080)
  | 6 => (0x8000000080008081, 0x000000000000800A)
  | 7 => (0x8000000000008009, 0x800000008000000A)
  | 8 => (0x000000000000008A, 0x8000000080008081)
  | 9 => (0x0000000000000088, 0x8000000000008080)
  | 10 => (0x0000000080008009, 0x0000000080000001)
  | 11 => (0x000000008000000A, 0x8000000080008008)
  | _ => (0, 0)

/-- `RC[ir]` (R108). -/
def roundConstant (ir : Nat) : Word :=
  if ir < 12 then (roundConstantRow ir).1 else (roundConstantRow (ir - 12)).2

/-- iota, the round-constant addition to lane `[0,0]` (R107). -/
def iota (A : Lanes) (ir : Nat) : Lanes :=
  { A with y0 := { A.y0 with x0 := A.y0.x0 ^^^ roundConstant ir } }

/-- One round (R101). -/
def keccakRound (A : Lanes) (ir : Nat) : Lanes := iota (chi (pi (rho (theta A)))) ir

/-- Keccak-f[1600]: the 24 rounds, `ir` from 0 to 23 (R101). -/
def keccakF (A : Lanes) : Lanes := (List.range 24).foldl keccakRound A

/-! ### The lane view of the buffer -/

/-- A number modulo 5: all index arithmetic on x and y is mod 5 (R100). -/
def mod5 (n : Nat) : Fin 5 := ⟨n % 5, Nat.mod_lt n (by decide)⟩

/-- Pack: lane number `k = x + 5*y` is the bytes `8k..8k+7`, least significant first (R51). -/
def pack (S : Memory) : Lanes :=
  Lanes.ofFn fun x y => wordOfFn (fun j => S.read (8 * (x.val + 5 * y.val) + j)) 8

/-- Byte `i` of the buffer that holds the lanes `A`: byte `i mod 8` of lane number `floor(i/8)` (R52, R55). -/
def laneByte (A : Lanes) (i : Nat) : Byte := byteOf (A.lane (mod5 (i / 8)) (mod5 (i / 8 / 5))) (i % 8)

/-- Unpack, the inverse of pack (R52). -/
def unpack (A : Lanes) : Memory := Memory.ofFn (laneByte A)

/-- `Permute()` on the state buffer (R52, R101). -/
def permute (S : Memory) : Memory := unpack (keccakF (pack S))

/-! ### The two tables by the recurrences that R104 and R108 give -/

/-- The positions `(x,y)` visited by R104's recurrence, from `(1,0)` on. -/
def rhoWalk : Nat → Nat × Nat
  | 0 => (1, 0)
  | t + 1 => ((rhoWalk t).2, (2 * (rhoWalk t).1 + 3 * (rhoWalk t).2) % 5)

/-- R104's offset at step `t` of the recurrence. -/
def rhoTriangular (t : Nat) : Nat := ((t + 1) * (t + 2) / 2) % 64

/-- One step of the LFSR with polynomial x^8 + x^6 + x^5 + x^4 + 1 (R108): multiplication by x. -/
def lfsrStep (r : Byte) : Byte := (r <<< 1) ^^^ (if r.msb then 0x71 else 0)

/-- The LFSR after `t` steps from 1. -/
def lfsr : Nat → Byte
  | 0 => 1
  | t + 1 => lfsrStep (lfsr t)

/-- `rc(t)` of R108: the output bit of the LFSR. -/
def rcBit (t : Nat) : Bool := (lfsr t).getLsbD 0

end Sys2Proof.Machine
end

