-- ==== Sys2Proof/Machine/Sponge.lean ====
section
/-! DEFINITION. The sponge primitives the commands share: AbsorbByte, SqueezeByte and PadAndTransition
(R130 to R132). -/

namespace Sys2Proof.Machine

/-- The common tail of AbsorbByte and SqueezeByte: the cursor moves on, and a full window is permuted at once
(R130, R131; eager, conflict C7). -/
def advance (s : State) : State :=
  if s.offset + 1 = s.rate then { s with S := permute s.S, offset := 0 }
  else { s with offset := s.offset + 1 }

/-- `AbsorbByte(b)` (R130). -/
def absorbByte (b : Byte) (s : State) : Host.Outcome State Fault Refusal :=
  andThen (readByte s.offset.toNat s) fun old =>
    andThen (writeByte s.offset.toNat (old ^^^ b) s) fun t => .next (advance t)

/-- AbsorbByte of each byte, first to last (R134). -/
def absorbBytes : List Byte → State → Host.Outcome State Fault Refusal
  | [], s => .next s
  | b :: bs, s => andThen (absorbByte b s) (absorbBytes bs)

/-- `SqueezeByte()` (R131): the byte and the state after it. -/
def squeezeByte (s : State) : Host.Outcome (Byte × State) Fault Refusal :=
  andThen (readByte s.offset.toNat s) fun b => .next (b, advance s)

/-- `n` calls of SqueezeByte: their bytes in order and the state after them (R136). -/
def squeezeBytes : Nat → State → Host.Outcome (List Byte × State) Fault Refusal
  | 0, s => .next ([], s)
  | n + 1, s =>
    andThen (squeezeByte s) fun r =>
      andThen (squeezeBytes n r.2) fun q => .next (r.1 :: q.1, q.2)

/-- Byte `i` of the pad block `P`: `delim` at `offset`, and 0x80 OR-ed in at `rate - 1` (R132; conflict C2). -/
def padByte (offset rate : Nat) (delim : Byte) (i : Nat) : Byte :=
  (if i = offset then delim else 0) ||| (if i + 1 = rate then 0x80 else 0)

/-- The buffer with the pad block XORed into its rate window (R132). -/
def padBuffer (offset rate : Nat) (delim : Byte) (S : Memory) : Memory :=
  Memory.ofFn fun i => if i < rate then S.read i ^^^ padByte offset rate delim i else S.read i

/-- `PadAndTransition()` (R132). The bytes `P[offset]` and `P[rate-1]` must exist (R14). -/
def padAndTransition (s : State) : Host.Outcome State Fault Refusal :=
  if s.offset.toNat < 200 ∧ 1 ≤ s.rate.toNat ∧ s.rate.toNat ≤ 200 then
    .next { s with
      S := permute (padBuffer s.offset.toNat s.rate.toNat s.delim s.S)
      offset := 0
      mode := .squeezing }
  else .fault .noSuchByte

/-- Squeeze `n` bytes into DOUT, zero above them (R28, R136). -/
def squeezeToDout (n : Nat) (s : State) : Host.Outcome State Fault Refusal :=
  andThen (squeezeBytes n s) fun r => .next (r.2.setDout (wordOfBytes r.1))

end Sys2Proof.Machine
end

