-- ==== Sys2Proof/Machine/Commands.lean ====
section
/-! DEFINITION. The meaning of each host command, with its checks in the order of R173 (R133 to R137).
The decoder has already refused a word with a nonzero must-be-zero field, so the ILLEGAL_COMMAND check that opens
each rule's pseudocode stands in `decode` (R77, R173), and the CMD value that FCMD records is the command's own word
(DEDUCED, log entry 7). -/

namespace Sys2Proof.Machine

/-- INIT (R133). -/
def execInit (rt dl : Byte) (s : State) : Host.Outcome State Fault Refusal :=
  command (encode (.init rt dl))
    [(!legalRate rt, .badRate)] s
    fun s => .next (s.begin rt dl)

/-- ABSORB n (R134). -/
def execAbsorb (n : BitVec 4) (s : State) : Host.Outcome State Fault Refusal :=
  command (encode (.absorb n))
    [(!legalCount n, .badCount),
     (s.mode == .idle, .notConfigured),
     (s.mode == .consumed, .consumed),
     (s.mode != .absorbing, .order)] s
    fun s => absorbBytes (bytesOf s.din n.toNat) s

/-- PAD (R135). -/
def execPad (s : State) : Host.Outcome State Fault Refusal :=
  command (encode .pad)
    [(s.mode == .idle, .notConfigured),
     (s.mode == .consumed, .consumed),
     (s.mode != .absorbing, .order)] s
    padAndTransition

/-- SQUEEZE n (R136). -/
def execSqueeze (n : BitVec 4) (s : State) : Host.Outcome State Fault Refusal :=
  command (encode (.squeeze n))
    [(!legalCount n, .badCount),
     (s.mode == .idle, .notConfigured),
     (s.mode == .consumed, .consumed),
     (s.mode != .squeezing, .order)] s
    fun s => squeezeToDout n.toNat s

/-- FINAL n (R137): pads only when still absorbing (conflict C8). -/
def execFinal (n : BitVec 4) (s : State) : Host.Outcome State Fault Refusal :=
  command (encode (.final n))
    [(!legalCount n, .badCount),
     (s.mode == .idle, .notConfigured),
     (s.mode == .consumed, .consumed)] s
    fun s =>
      andThen (if s.mode = .absorbing then padAndTransition s else .next s) fun t =>
        andThen (squeezeToDout n.toNat t) fun u => .next (u.setMode .consumed)

end Sys2Proof.Machine
end

