-- ==== Sys2Proof/Machine/Dispatch.lean ====
section
/-! DEFINITION. One arm per command, each a direct call of its meaning. -/

namespace Sys2Proof.Machine

-- The mode decides only whether a decoded command is permitted (R79); each meaning checks it.
def exec (i : Instr) (s : State) : Host.Outcome State Fault Refusal :=
  match i with
  | .init rate delim => Sys2Proof.Machine.execInit rate delim s
  | .absorb n => Sys2Proof.Machine.execAbsorb n s
  | .pad => Sys2Proof.Machine.execPad s
  | .squeeze n => Sys2Proof.Machine.execSqueeze n s
  | .final n => Sys2Proof.Machine.execFinal n s

end Sys2Proof.Machine
end

