-- ==== Sys2Proof/Machine/Flags.lean ====
section
/-! DEFINITION. The block has no flags beyond the fields of STATUS (R24): their codes and STATUS itself (R29). -/

namespace Sys2Proof.Machine

/-- STATUS.MODE (R29, R32). -/
def Mode.code : Mode → BitVec 3
  | .idle => 0
  | .absorbing => 1
  | .squeezing => 2
  | .consumed => 3
  | .fault => 4

/-- STATUS.FCODE (R171). -/
def FaultCode.code : FaultCode → BitVec 4
  | .none => 0
  | .illegalCommand => 1
  | .badRate => 2
  | .badCount => 3
  | .notConfigured => 4
  | .order => 5
  | .consumed => 6

/-- STATUS, a view of the state that holds no bits of its own (R29). -/
def status (s : State) : Word :=
  (s.fcode.code ++ s.delim ++ s.rate ++ s.offset ++ 0#5 ++ s.mode.code).zeroExtend 64

end Sys2Proof.Machine
end

