-- ==== Sys2Proof/Machine/HostPort.lean ====
section
/-! DEFINITION. The host register window (R56) and what one host access does. -/

namespace Sys2Proof.Machine

/-- A write of `c` to CMD executes the command it spells, whole (R56, R59, R77). -/
def executeWord (c : Word) (s : State) : Host.Outcome State Fault Refusal :=
  match decode c with
  | .ok i => exec i s
  | .error _ => illegalCommand c s

/-- What a read of the register at `offset` returns: CMD and the reserved registers read 0 (R56). -/
def readRegister (offset : Nat) (s : State) : Word :=
  match offset with
  | 0x08 => s.din
  | 0x10 => s.dout
  | 0x18 => status s
  | 0x20 => s.fcmd
  | _ => 0

/-- What a write of `v` to the register at `offset` does: the read-only and the reserved registers ignore it (R56). -/
def writeRegister (offset : Nat) (v : Word) (s : State) : Host.Outcome State Fault Refusal :=
  match offset with
  | 0x00 => executeWord v s
  | 0x08 => .next (s.setDin v)
  | _ => .next s

/-- An access at `offset` of `width` bits reaches the register window only inside its 0x40 bytes (R56), and only
64-bit accesses aligned to 8 bytes have a move; to any other the bus responds with HOST_BAD_ACCESS (R9, R57). -/
def checkedAccess (offset width : Nat) (access : Host.Outcome State Fault Refusal) :
    Host.Outcome State Fault Refusal :=
  if 0x40 ≤ offset then .fault .outsideWindow
  else if width = 64 ∧ offset % 8 = 0 then access
  else .fault (.hostBadAccess (Config.hostBadAccess offset width))

/-- One host action, performed whole (R59, R63; an access during a command is held until after it, DEDUCED, log
entry 2). A read leaves its value with the host and changes nothing in the
block (R56); reset sets the block to its reset state (R200). -/
def perform (a : HostAction) (s : State) : Host.Outcome State Fault Refusal :=
  match a with
  | .read offset width => checkedAccess offset width (.next (s.observe (readRegister offset s)))
  | .write offset width v => checkedAccess offset width (writeRegister offset v s)
  | .reset => .next (resetBlock s)

/-- Host actions in host order (R63). -/
def performAll : List HostAction → State → Host.Outcome State Fault Refusal
  | [], s => .next s
  | a :: as, s => andThen (perform a s) (performAll as)

end Sys2Proof.Machine
end

