-- ==== Sys2Proof/Machine/Step.lean ====
section
/-! DEFINITION. One step: the next access of the host, whole (R15, R59). -/

namespace Sys2Proof.Machine

/-- The block executes nothing on its own: a step performs the host's next access, and with none to perform the
state is kept (R23, R184, R201). -/
def step (s : State) : Host.Outcome State Fault Refusal :=
  match s.pending with
  | [] => .next s
  | a :: rest => perform a (s.setPending rest)

/-- `s` with a write of the command word `w` to CMD as the host's next access: where this machine takes its next
instruction from (R23, R56). -/
def State.withFetchWord (s : State) (nbits w : Nat) : State :=
  s.setPending (.write 0x00 64 (BitVec.ofNat 64 (w % 2 ^ nbits)) :: s.pending)

end Sys2Proof.Machine
end

