-- ==== Sys2Proof/Machine/Assembler.lean ====
section
/-! DEFINITION. The assembler's lines and their host actions: R80, with the pseudo-instructions of R81.
A line is data here, its numbers already read; AsmText.lean reads text. -/

namespace Sys2Proof.Machine

/-- A line of R80 or R81. -/
inductive AsmLine where
  /-- A command with its operands as numbers. -/
  | init (rate delim : Nat)
  | absorb (n : Nat)
  | pad
  | squeeze (n : Nat)
  | final (n : Nat)
  /-- `.cmd v`: any CMD value, illegal ones included. -/
  | cmd (v : Word)
  /-- `WDIN v`. -/
  | wdin (v : Word)
  /-- `RDOUT`, `RSTATUS`, `RFCMD`. -/
  | rdout
  | rstatus
  | rfcmd
  /-- `RESET`. -/
  | reset
  /-- The security-level presets: the Keccak and SHA-3 ones by their bit count, the SHAKE ones by theirs. -/
  | keccak (bits : Nat)
  | sha3 (bits : Nat)
  | shake (bits : Nat)
  /-- `ABSORBB b0, …`: absorb the listed bytes. -/
  | absorbb (bytes : List Byte)
  /-- `SQUEEZEN n`: squeeze n bytes, reading DOUT after each command. -/
  | squeezen (n : Nat)
  /-- `DIGEST n`: pad, squeeze n bytes, consume. -/
  | digest (n : Nat)
deriving DecidableEq, Repr

/-- A write to CMD (R56). -/
def writeCmd (c : Word) : HostAction := .write 0x00 64 c

/-- `WDIN v` (R80). -/
def writeDin (v : Word) : HostAction := .write 0x08 64 v

/-- `RDOUT` (R80). -/
def readDout : HostAction := .read 0x10 64

/-- `RSTATUS` (R80). -/
def readStatus : HostAction := .read 0x18 64

/-- `RFCMD` (R80). -/
def readFcmd : HostAction := .read 0x20 64

/-- A command with legal operands (R80). -/
def issue (i : Instr) : List HostAction := [writeCmd (encode i)]

/-- The construction API's rate for a security level: `(1600 - 2*securityBits) / 8` (R7, R81). -/
def presetRate (bits : Nat) : Nat := (1600 - 2 * bits) / 8

/-- INIT with rate and delimiter as numbers; refused outside 1..199 and 0..255 (R80). -/
def assembleInit (rate delim : Nat) : Option (List HostAction) :=
  if 1 ≤ rate ∧ rate ≤ 199 ∧ delim ≤ 255 then
    some (issue (.init (BitVec.ofNat 8 rate) (BitVec.ofNat 8 delim)))
  else none

/-- A counted command; refused outside 0..8 (R80). -/
def assembleCount (f : BitVec 4 → Instr) (n : Nat) : Option (List HostAction) :=
  if n ≤ 8 then some (issue (f (BitVec.ofNat 4 n))) else none

/-- A preset, for the security levels R81 lists. -/
def assemblePreset (levels : List Nat) (delim bits : Nat) : Option (List HostAction) :=
  if bits ∈ levels then assembleInit (presetRate bits) delim else none

/-- `WDIN` of up to 8 bytes, then `ABSORB` of as many (R81). -/
def absorbChunk (bs : List Byte) : List HostAction :=
  writeDin (wordOfBytes bs) :: issue (.absorb (BitVec.ofNat 4 bs.length))

/-- The host's actions to absorb chunk after chunk. -/
def absorbChunks (chunks : List (List Byte)) : List HostAction := chunks.flatMap absorbChunk

/-- `SQUEEZE n` with `RDOUT`. -/
def squeezeRead (n : Nat) : List HostAction := issue (.squeeze (BitVec.ofNat 4 n)) ++ [readDout]

/-- `FINAL n` with `RDOUT`. -/
def finalRead (n : Nat) : List HostAction := issue (.final (BitVec.ofNat 4 n)) ++ [readDout]

/-- A byte string cut into chunks of 8 and a last one of what is left; `fuel` bounds the number of chunks. -/
def chunksOf8 : Nat → List Byte → List (List Byte)
  | 0, _ => []
  | fuel + 1, bs => if bs = [] then [] else bs.take 8 :: chunksOf8 fuel (bs.drop 8)

/-- The number of squeezing commands of `DIGEST n`: `max(1, ceil(n/8))` (R81, R143). -/
def digestCommands (n : Nat) : Nat := max 1 ((n + 7) / 8)

/-- The expansion of `DIGEST n` (R81, R143). -/
def digestActions (n : Nat) : List HostAction :=
  issue .pad ++ (List.replicate (digestCommands n - 1) (squeezeRead 8)).flatten
    ++ finalRead (n - 8 * (digestCommands n - 1))

/-- The expansion of `SQUEEZEN n` (R81). -/
def squeezenActions (n : Nat) : List HostAction :=
  (List.replicate (n / 8) (squeezeRead 8)).flatten ++ (if n % 8 = 0 then [] else squeezeRead (n % 8))

/-- The host actions of a line, or none where the assembler refuses it (R80, R81). -/
def assemble : AsmLine → Option (List HostAction)
  | .init rate delim => assembleInit rate delim
  | .absorb n => assembleCount .absorb n
  | .pad => some (issue .pad)
  | .squeeze n => assembleCount .squeeze n
  | .final n => assembleCount .final n
  | .cmd v => some [writeCmd v]
  | .wdin v => some [writeDin v]
  | .rdout => some [readDout]
  | .rstatus => some [readStatus]
  | .rfcmd => some [readFcmd]
  | .reset => some [.reset]
  | .keccak bits => assemblePreset [224, 256, 384, 512] 0x01 bits
  | .sha3 bits => assemblePreset [224, 256, 384, 512] 0x06 bits
  | .shake bits => assemblePreset [128, 256] 0x1F bits
  | .absorbb bs => some (absorbChunks (chunksOf8 bs.length bs))
  | .squeezen n => some (squeezenActions n)
  | .digest n => some (digestActions n)

end Sys2Proof.Machine
end

