-- ==== Sys2Proof/Machine/Platform.lean ====
section
/-! DEFINITION. A platform of independent copies of the block (R183), each with its own register window in the
host's address space (R56, R61) and its own one host (R64;
DEDUCED, log entries 8 and 13). -/

namespace Sys2Proof.Machine

/-- The engines of a platform, by number. They share nothing (R183). -/
abbrev Platform := List State

/-- Every engine in its reset state. -/
def Platform.reset : Platform := List.replicate Config.numEngines State.reset

/-- The register offset that host address `addr` has in engine `k`'s window, if it lies there (R56). -/
def windowOffset (k addr : Nat) : Option Nat :=
  if Config.baseAddr k ≤ addr ∧ addr < Config.baseAddr k + 0x40 then some (addr - Config.baseAddr k) else none

/-- Go on with engine `k` alone. -/
def Platform.onEngine (k : Nat) (p : Platform) (f : State → Host.Outcome State Fault Refusal) :
    Host.Outcome Platform Fault Refusal :=
  match p[k]? with
  | none => .fault .noSuchEngine
  | some s => andThen (f s) fun t => .next (p.set k t)

/-- One step of engine `k`. -/
def Platform.step (k : Nat) (p : Platform) : Host.Outcome Platform Fault Refusal :=
  Platform.onEngine k p Sys2Proof.Machine.step

/-- A host read of `width` bits at host address `addr`, in engine `k`'s window. -/
def Platform.busRead (k addr width : Nat) (p : Platform) : Host.Outcome Platform Fault Refusal :=
  match windowOffset k addr with
  | none => .fault .noSuchEngine
  | some offset => Platform.onEngine k p (perform (.read offset width))

/-- A host write of `width` bits at host address `addr`, in engine `k`'s window. -/
def Platform.busWrite (k addr width : Nat) (v : Word) (p : Platform) : Host.Outcome Platform Fault Refusal :=
  match windowOffset k addr with
  | none => .fault .noSuchEngine
  | some offset => Platform.onEngine k p (perform (.write offset width v))

end Sys2Proof.Machine
end

