-- ==== Sys2Proof/Machine/Timing.lean ====
section
/-! DEFINITION. How many permutations a command performs (R144) and the informative cost model over it (R206).
No step reads any of this: the model represents no time (R206; DEDUCED, log entry 14). -/

namespace Sys2Proof.Machine

/-- How many of `n` successive cursor moves from `s` fill the window, each of which permutes (R130, R131). -/
def boundaryPermutes : Nat → State → Nat
  | 0, _ => 0
  | n + 1, s => (if s.offset + 1 = s.rate then 1 else 0) + boundaryPermutes n (advance s)

/-- R144's table for a command that goes ahead: its permutations, from the state before it. -/
def permutesOf (i : Instr) (s : State) : Nat :=
  match i with
  | .init _ _ => 0
  | .absorb n => (s.offset.toNat + n.toNat) / s.rate.toNat
  | .pad => 1
  | .squeeze n => (s.offset.toNat + n.toNat) / s.rate.toNat
  | .final n =>
    if s.mode = .absorbing then 1 + n.toNat / s.rate.toNat
    else (s.offset.toNat + n.toNat) / s.rate.toNat

/-- R144 whole: a command that faults or is ignored leaves the block in Fault and performs none. -/
def permuteCount (i : Instr) (s : State) : Nat :=
  match exec i s with
  | .next t => if t.mode = .fault then 0 else permutesOf i s
  | .fault _ => 0
  | .refused _ => 0

/-- The time of a command (R206, informative). -/
def commandTime (i : Instr) (s : State) : Nat := Config.cmdLatency + permuteCount i s * Config.permLatency

end Sys2Proof.Machine
end

