-- ==== Sys2Proof/Safety.lean ====
section
/-! DEFINITION. What claims call a sound state and a safe run (R33, R202, R203). -/

namespace Sys2Proof.Machine

/-- A computation's parameters and cursor are in range: `1 <= rate <= 199` and `0 <= offset < rate` (R33 (a)). -/
abbrev Window (s : State) : Prop :=
  1 ≤ s.rate.toNat ∧ s.rate.toNat ≤ 199 ∧ s.offset.toNat < s.rate.toNat

/-- No computation exists: rate, offset and delimiter 0 and the buffer zero (R33 (b)). -/
abbrev Blank (s : State) : Prop := s.rate = 0 ∧ s.offset = 0 ∧ s.delim = 0 ∧ s.S = []

/-- The invariants of R33 between two commands, with the buffer's canonical form, and FCMD zero until a fault
(R30). Clause (c) keeps what the faulting command found: the state of one of the other modes
(DEDUCED, log entry 12). -/
abbrev Inv (s : State) : Prop :=
  s.S.wf ∧
  (s.mode = .absorbing ∨ s.mode = .squeezing ∨ s.mode = .consumed → Window s) ∧
  (s.mode = .idle → Blank s) ∧
  (s.mode = .fault → (Window s ∨ Blank s) ∧ s.fcode ≠ .none) ∧
  (s.mode ≠ .fault → s.fcode = .none ∧ s.fcmd = 0)

/-- A launch premise of R203: a sound state with no fault recorded. -/
abbrev Launch (s : State) : Prop := Inv s ∧ s.fcode = .none

/-- A safe run of host actions from `s`: it comes to `t`, and no fault is recorded there (R202). Because a fault
stays recorded until reset, a run without a reset then met none. -/
def SafeRun (as : List HostAction) (s t : State) : Prop := performAll as s = .next t ∧ t.fcode = .none

end Sys2Proof.Machine
end

