-- ==== Sys2Proof/Safety/Reference.lean ====
section
/-! DEFINITION. The spec's pseudocode for every CMD write, set down a second time and independently of the model:
over a plain byte function and natural numbers, straight from the 64-bit CMD value, with none of the model's decoder,
checks, buffer operations or sponge primitives. Only the permutation of 25 lanes is shared. A claim says that the
model refines it. -/

namespace Sys2Proof.Reference

open Sys2Proof.Machine

/-- The registers as numbers (R13), the buffer as a function of the byte index. -/
structure Sponge where
  S : Nat → Byte
  offset : Nat
  rate : Nat
  delim : Byte
  mode : Nat
  DIN : Word
  DOUT : Word
  FCODE : Nat
  FCMD : Word

/-- `Permute()`: bytes to lanes (R51), Keccak-f, lanes to bytes (R52). -/
def permuteBytes (S : Nat → Byte) : Nat → Byte :=
  let A := keccakF (Lanes.ofFn fun x y =>
    (List.range 8).foldl (fun w j => w + (S (8 * (x.val + 5 * y.val) + j)).zeroExtend 64 <<< (8 * j)) 0)
  fun i => ((A.lane (Fin.ofNat 5 (i / 8 % 5)) (Fin.ofNat 5 (i / 40))) >>> (8 * (i % 8))).setWidth 8

/-- The tail `if offset == rate: Permute(); offset <- 0` (R130, R131). -/
def wrap (r : Sponge) : Sponge :=
  if r.offset = r.rate then { r with S := permuteBytes r.S, offset := 0 } else r

/-- `AbsorbByte(b)` (R130). -/
def absorbByte (b : Byte) (r : Sponge) : Sponge :=
  wrap { r with S := fun i => if i = r.offset then r.S i ^^^ b else r.S i, offset := r.offset + 1 }

/-- `SqueezeByte()` (R131): the byte and what follows. -/
def squeezeByte (r : Sponge) : Byte × Sponge := (r.S r.offset, wrap { r with offset := r.offset + 1 })

/-- The pad block's byte `i` (R132): `P <- 0`, `P[offset] <- delim`, `P[rate-1] <- P[rate-1] | 0x80`. -/
def padBlock (r : Sponge) (i : Nat) : Byte :=
  if i = r.rate - 1 then (if i = r.offset then r.delim else 0) ||| 0x80
  else if i = r.offset then r.delim
  else 0

/-- `PadAndTransition()` (R132). -/
def padAndTransition (r : Sponge) : Sponge :=
  { r with
    S := permuteBytes fun i => if i < r.rate then r.S i ^^^ padBlock r i else r.S i
    offset := 0
    mode := 2 }

/-- `for k in 0..n-1: AbsorbByte(DIN[8k+7:8k])` (R134). -/
def absorb (n : Nat) (r : Sponge) : Sponge :=
  (List.range n).foldl (fun r k => absorbByte ((r.DIN >>> (8 * k)).setWidth 8) r) r

/-- `out = 0; for k in 0..n-1: out[8k+7:8k] = SqueezeByte()` (R136). -/
def squeezeLoop (n : Nat) (r : Sponge) : Word × Sponge :=
  (List.range n).foldl
    (fun q k => (q.1 ||| (squeezeByte q.2).1.zeroExtend 64 <<< (8 * k), (squeezeByte q.2).2)) (0, r)

/-- The loop of R136 followed by `DOUT <- out`. -/
def squeeze (n : Nat) (r : Sponge) : Sponge := { (squeezeLoop n r).2 with DOUT := (squeezeLoop n r).1 }

/-- `raise Fault(code)` (R174). -/
def raiseFault (code : Nat) (c : Word) (r : Sponge) : Sponge := { r with FCODE := code, FCMD := c, mode := 4 }

/-- `c[hi:lo]` as a number (R10). -/
def bits (c : Word) (hi lo : Nat) : Nat := c.toNat / 2 ^ lo % 2 ^ (hi + 1 - lo)

/-- INIT (R133). -/
def init (c : Word) (r : Sponge) : Sponge :=
  if bits c 63 24 ≠ 0 ∨ bits c 7 4 ≠ 0 then raiseFault 1 c r
  else if bits c 15 8 = 0 ∨ 200 ≤ bits c 15 8 then raiseFault 2 c r
  else { r with
    S := fun _ => 0
    offset := 0
    rate := bits c 15 8
    delim := BitVec.ofNat 8 (bits c 23 16)
    DOUT := 0
    mode := 1 }

/-- ABSORB (R134). -/
def absorbCommand (c : Word) (r : Sponge) : Sponge :=
  if bits c 63 24 ≠ 0 ∨ bits c 23 8 ≠ 0 then raiseFault 1 c r
  else if 8 < bits c 7 4 then raiseFault 3 c r
  else if r.mode = 0 then raiseFault 4 c r
  else if r.mode = 3 then raiseFault 6 c r
  else if r.mode ≠ 1 then raiseFault 5 c r
  else absorb (bits c 7 4) r

/-- PAD (R135). -/
def padCommand (c : Word) (r : Sponge) : Sponge :=
  if bits c 63 4 ≠ 0 then raiseFault 1 c r
  else if r.mode = 0 then raiseFault 4 c r
  else if r.mode = 3 then raiseFault 6 c r
  else if r.mode ≠ 1 then raiseFault 5 c r
  else padAndTransition r

/-- SQUEEZE (R136). -/
def squeezeCommand (c : Word) (r : Sponge) : Sponge :=
  if bits c 63 24 ≠ 0 ∨ bits c 23 8 ≠ 0 then raiseFault 1 c r
  else if 8 < bits c 7 4 then raiseFault 3 c r
  else if r.mode = 0 then raiseFault 4 c r
  else if r.mode = 3 then raiseFault 6 c r
  else if r.mode ≠ 2 then raiseFault 5 c r
  else squeeze (bits c 7 4) r

/-- FINAL (R137). -/
def finalCommand (c : Word) (r : Sponge) : Sponge :=
  if bits c 63 24 ≠ 0 ∨ bits c 23 8 ≠ 0 then raiseFault 1 c r
  else if 8 < bits c 7 4 then raiseFault 3 c r
  else if r.mode = 0 then raiseFault 4 c r
  else if r.mode = 3 then raiseFault 6 c r
  else { squeeze (bits c 7 4) (if r.mode = 1 then padAndTransition r else r) with mode := 3 }

/-- A CMD write, by its OP (R72), ignored in Fault (R176). -/
def cmdWrite (c : Word) (r : Sponge) : Sponge :=
  if r.mode = 4 then r
  else if bits c 3 0 = 1 then init c r
  else if bits c 3 0 = 2 then absorbCommand c r
  else if bits c 3 0 = 3 then padCommand c r
  else if bits c 3 0 = 4 then squeezeCommand c r
  else if bits c 3 0 = 5 then finalCommand c r
  else raiseFault 1 c r

/-- The block's registers of a model state, as the reference has them. -/
def view (s : State) : Sponge where
  S := s.S.read
  offset := s.offset.toNat
  rate := s.rate.toNat
  delim := s.delim
  mode := (status s).toNat % 8
  DIN := s.din
  DOUT := s.dout
  FCODE := (status s).toNat / 2 ^ 32
  FCMD := s.fcmd

/-- Two reference states agree: every register, and the 200 bytes that exist. -/
def Agrees (r q : Sponge) : Prop :=
  (∀ i, i < 200 → r.S i = q.S i) ∧ r.offset = q.offset ∧ r.rate = q.rate ∧ r.delim = q.delim ∧ r.mode = q.mode ∧
    r.DIN = q.DIN ∧ r.DOUT = q.DOUT ∧ r.FCODE = q.FCODE ∧ r.FCMD = q.FCMD

end Sys2Proof.Reference
end

