-- ==== Sys2Proof/Certificates/Slice0/Obligations.lean ====
section
/-! DEFINITION. The statements for the provers, and the few terms they share. -/

namespace Sys2Proof.Claims

open Sys2Proof.Machine

/-- A word R77 calls illegal: (a) OP 0 or 6..15, (b) RES nonzero, (c) a must-be-zero field of R72 nonzero. -/
abbrev IllegalWord (c : Word) : Prop :=
  c.extractLsb' 0 4 = 0#4 ∨ 6#4 ≤ c.extractLsb' 0 4 ∨
  c.extractLsb' 24 40 ≠ 0#40 ∨
  ((c.extractLsb' 0 4 = 1#4 ∨ c.extractLsb' 0 4 = 3#4) ∧ c.extractLsb' 4 4 ≠ 0#4) ∨
  (c.extractLsb' 0 4 ≠ 1#4 ∧ c.extractLsb' 8 16 ≠ 0#16)

/-- The masks and matches of R73's table. -/
def rows : List (Word × Word) :=
  [(0xFFFFFFFFFF0000FF, 0x0000000000000001),
   (0xFFFFFFFFFFFFFF0F, 0x0000000000000002),
   (0xFFFFFFFFFFFFFFFF, 0x0000000000000003),
   (0xFFFFFFFFFFFFFF0F, 0x0000000000000004),
   (0xFFFFFFFFFFFFFF0F, 0x0000000000000005)]

/-- The state after fault entry (R174), written out. -/
def faulted (f : FaultCode) (c : Word) (s : State) : State := { s with fcode := f, fcmd := c, mode := .fault }

/-- R171's number of a fault code. -/
def codeNumber : FaultCode → BitVec 4
  | .none => 0
  | .illegalCommand => 1
  | .badRate => 2
  | .badCount => 3
  | .notConfigured => 4
  | .order => 5
  | .consumed => 6

/-- R173's checks 2 to 6 on the raw CMD value, in its order: the code of the first that fails, for a mode other than
Fault. -/
def decidingCode (c : Word) (s : State) : Option FaultCode :=
  if IllegalWord c then some .illegalCommand
  else if c.extractLsb' 0 4 ∈ [2#4, 4#4, 5#4] ∧ 8 < (c.extractLsb' 4 4).toNat then some .badCount
  else if c.extractLsb' 0 4 = 1#4 ∧ ((c.extractLsb' 8 8).toNat = 0 ∨ 200 ≤ (c.extractLsb' 8 8).toNat) then
    some .badRate
  else if s.mode = .idle ∧ c.extractLsb' 0 4 ≠ 1#4 then some .notConfigured
  else if s.mode = .consumed ∧ c.extractLsb' 0 4 ≠ 1#4 then some .consumed
  else if s.mode = .squeezing ∧ c.extractLsb' 0 4 ∈ [2#4, 3#4] then some .order
  else if s.mode = .absorbing ∧ c.extractLsb' 0 4 = 4#4 then some .order
  else none

/-- R138's table, a row per mode and a column per command: the next mode, or the fault raised. -/
def fsmCell : Mode → Instr → Except FaultCode Mode
  | .idle, .init _ _ => .ok .absorbing
  | .idle, .absorb _ => .error .notConfigured
  | .idle, .pad => .error .notConfigured
  | .idle, .squeeze _ => .error .notConfigured
  | .idle, .final _ => .error .notConfigured
  | .absorbing, .init _ _ => .ok .absorbing
  | .absorbing, .absorb _ => .ok .absorbing
  | .absorbing, .pad => .ok .squeezing
  | .absorbing, .squeeze _ => .error .order
  | .absorbing, .final _ => .ok .consumed
  | .squeezing, .init _ _ => .ok .absorbing
  | .squeezing, .absorb _ => .error .order
  | .squeezing, .pad => .error .order
  | .squeezing, .squeeze _ => .ok .squeezing
  | .squeezing, .final _ => .ok .consumed
  | .consumed, .init _ _ => .ok .absorbing
  | .consumed, .absorb _ => .error .consumed
  | .consumed, .pad => .error .consumed
  | .consumed, .squeeze _ => .error .consumed
  | .consumed, .final _ => .error .consumed
  | .fault, .init _ _ => .ok .fault
  | .fault, .absorb _ => .ok .fault
  | .fault, .pad => .ok .fault
  | .fault, .squeeze _ => .ok .fault
  | .fault, .final _ => .ok .fault

/-- Byte `k` of a 64-bit register, bits `8k+7:8k` (R54). -/
abbrev regByte (w : Word) (k : Nat) : Byte := w.extractLsb' (8 * k) 8

/-- The byte of the pad block at index `i`, by the corner cases of R132. -/
def padCase (offset rate : Nat) (delim : Byte) (i : Nat) : Byte :=
  if i = offset ∧ i + 1 = rate then delim ||| 0x80
  else if i = offset then delim
  else if i + 1 = rate then 0x80
  else 0

/-- The bytes the host takes from its reads of DOUT: so many of each read, byte 0 first (R54). -/
def outputBytes : List Nat → List Word → List Byte
  | n :: ns, w :: ws => (List.range n).map (regByte w) ++ outputBytes ns ws
  | _, _ => []

/-- SQUEEZE commands with the given counts, DOUT read after each, and then perhaps a FINAL, DOUT read after it. -/
def squeezeProgram (counts : List Nat) (last : Option Nat) : List HostAction :=
  counts.flatMap squeezeRead ++ (match last with | none => [] | some n => finalRead n)

/-- What a run of `squeezeProgram counts last` from `s` to `t` hands the host, as bytes. -/
def runOutput (counts : List Nat) (last : Option Nat) (s t : State) : List Byte :=
  outputBytes (counts ++ last.toList) (t.observed.drop s.observed.length)

end Sys2Proof.Claims

open Sys2Proof Sys2Proof.Machine Sys2Proof.Claims

/-! ### Encoding -/

/-- For every command, at every value of its operands, legal or not, decoding the word of the command gives that
command (R70 to R72). (R70, R71, R72) -/
def Obligations.DecodeOfEncode : Prop :=
  ∀ i : Instr, decode (encode i) = .ok i

/-- A CMD value that decodes to a command is that command's word: the decoder drops no bit of it (R71, R73). (R71,
R73) -/
def Obligations.EncodeOfDecode : Prop :=
  ∀ (c : Word) (i : Instr), decode c = .ok i → encode i = c

/-- A CMD value decodes to a row's command exactly when the value under the row's mask is the row's match, with
the operands of R71; no value meets two rows; a value that meets none is illegal; a value that meets a row can
still fault on its operand value, with BAD_COUNT or BAD_RATE. That no value meets two rows the spec marks as its
own inference (R73, "[derived: from rule R72]"). (R73, R77, R74, R75) -/
def Obligations.MatchAndMaskSpellTheCommand : Prop :=
  ∀ c : Word,
    (∀ rate delim, decode c = .ok (.init rate delim) ↔
      c &&& 0xFFFFFFFFFF0000FF = 0x0000000000000001 ∧ rate = c.extractLsb' 8 8 ∧ delim = c.extractLsb' 16 8) ∧
    (∀ n, decode c = .ok (.absorb n) ↔
      c &&& 0xFFFFFFFFFFFFFF0F = 0x0000000000000002 ∧ n = c.extractLsb' 4 4) ∧
    (decode c = .ok .pad ↔ c &&& 0xFFFFFFFFFFFFFFFF = 0x0000000000000003) ∧
    (∀ n, decode c = .ok (.squeeze n) ↔
      c &&& 0xFFFFFFFFFFFFFF0F = 0x0000000000000004 ∧ n = c.extractLsb' 4 4) ∧
    (∀ n, decode c = .ok (.final n) ↔
      c &&& 0xFFFFFFFFFFFFFF0F = 0x0000000000000005 ∧ n = c.extractLsb' 4 4) ∧
    rows.Pairwise (fun p q => ¬ (c &&& p.1 = p.2 ∧ c &&& q.1 = q.2)) ∧
    ((∀ p ∈ rows, c &&& p.1 ≠ p.2) → IllegalWord c) ∧
    (∀ (s : State) (rate delim : Byte), s.mode ≠ .fault → decode c = .ok (.init rate delim) →
      rate.toNat = 0 ∨ 200 ≤ rate.toNat → executeWord c s = .next (faulted .badRate c s)) ∧
    (∀ (s : State) (n : BitVec 4) (i : Instr), s.mode ≠ .fault → decode c = .ok i →
      i ∈ [.absorb n, .squeeze n, .final n] → 8 < n.toNat → executeWord c s = .next (faulted .badCount c s))

/-- A CMD value is rejected by the decoder exactly when OP is 0 or 6..15, or RES is nonzero, or a must-be-zero
field of its OP is nonzero; written to CMD outside Fault it raises ILLEGAL_COMMAND; every other value is one of
the five commands. (R77) -/
def Obligations.IllegalWordsRaiseIllegalCommand : Prop :=
  ∀ c : Word,
    ((∃ e, decode c = .error e) ↔ IllegalWord c) ∧
    (¬ IllegalWord c → ∃ i, decode c = .ok i) ∧
    (∀ s : State, IllegalWord c → s.mode ≠ .fault → executeWord c s = .next (faulted .illegalCommand c s))

/-- Every CMD value is illegal under R77 and decodes to nothing, or decodes to exactly one of the five commands
with the operands cnt, rt and dl of the value; never both. That decoding depends on nothing else is the decoder's
type. The spec marks this as its own inference (R82, "[derived: from rule R72, rule R73 and rule R77]"). (R72,
R73, R77) -/
def Obligations.DecodingIsTotal : Prop :=
  ∀ c : Word,
    (IllegalWord c ∧ ∀ i, decode c ≠ .ok i) ∨
    (¬ IllegalWord c ∧ ∃! i, decode c = .ok i ∧
      (i = .init (c.extractLsb' 8 8) (c.extractLsb' 16 8) ∨ i = .absorb (c.extractLsb' 4 4) ∨ i = .pad ∨
        i = .squeeze (c.extractLsb' 4 4) ∨ i = .final (c.extractLsb' 4 4)))

/-- Command words written out in the spec decode to the commands they stand for, one of each command at least, and
its illegal words are rejected for the reason it gives. (95_test_vectors.md section 2, R70) -/
def Obligations.EncodingVectorsDecode : Prop :=
  decode 0x0000000000068801 = .ok (.init 136 0x06) ∧
  decode 0x0000000000ff0101 = .ok (.init 1 0xff) ∧
  decode 0x0000000000000082 = .ok (.absorb 8) ∧
  decode 0x0000000000000003 = .ok .pad ∧
  decode 0x0000000000000014 = .ok (.squeeze 1) ∧
  decode 0x0000000000000085 = .ok (.final 8) ∧
  decode 0x0000000000000000 = .error .opcode ∧
  decode 0x0000000001000012 = .error .reserved ∧
  decode 0x0000000000068811 = .error .mustBeZero

/-- INIT, ABSORB, PAD, SQUEEZE and FINAL assemble to the CMD values of R80's table and are refused outside their
operand ranges; the raw command, WDIN, RDOUT, RSTATUS, RFCMD and RESET assemble to their host actions. (R80) -/
def Obligations.AssemblerEncodings : Prop :=
  (∀ rate delim : Nat,
    (1 ≤ rate ∧ rate ≤ 199 ∧ delim ≤ 255 →
      assemble (.init rate delim) =
        some [.write 0x00 64 (BitVec.ofNat 64 rate <<< 8 ||| BitVec.ofNat 64 delim <<< 16 ||| 0x1)]) ∧
    (¬ (1 ≤ rate ∧ rate ≤ 199 ∧ delim ≤ 255) → assemble (.init rate delim) = none)) ∧
  (∀ n : Nat,
    (n ≤ 8 →
      assemble (.absorb n) = some [.write 0x00 64 (BitVec.ofNat 64 n <<< 4 ||| 0x2)] ∧
      assemble (.squeeze n) = some [.write 0x00 64 (BitVec.ofNat 64 n <<< 4 ||| 0x4)] ∧
      assemble (.final n) = some [.write 0x00 64 (BitVec.ofNat 64 n <<< 4 ||| 0x5)]) ∧
    (8 < n → assemble (.absorb n) = none ∧ assemble (.squeeze n) = none ∧ assemble (.final n) = none)) ∧
  assemble .pad = some [.write 0x00 64 0x3] ∧
  (∀ v : Word, assemble (.cmd v) = some [.write 0x00 64 v] ∧ assemble (.wdin v) = some [.write 0x08 64 v]) ∧
  assemble .rdout = some [.read 0x10 64] ∧ assemble .rstatus = some [.read 0x18 64] ∧
  assemble .rfcmd = some [.read 0x20 64] ∧ assemble .reset = some [.reset]

/-- The ten presets assemble to the INIT commands of R81's table, and no other security level of the three kinds
assembles. (R81) -/
def Obligations.PresetExpansions : Prop :=
  assemble (.keccak 224) = assemble (.init 144 0x01) ∧ assemble (.keccak 256) = assemble (.init 136 0x01) ∧
  assemble (.keccak 384) = assemble (.init 104 0x01) ∧ assemble (.keccak 512) = assemble (.init 72 0x01) ∧
  assemble (.sha3 224) = assemble (.init 144 0x06) ∧ assemble (.sha3 256) = assemble (.init 136 0x06) ∧
  assemble (.sha3 384) = assemble (.init 104 0x06) ∧ assemble (.sha3 512) = assemble (.init 72 0x06) ∧
  assemble (.shake 128) = assemble (.init 168 0x1F) ∧ assemble (.shake 256) = assemble (.init 136 0x1F) ∧
  (∀ bits, bits ∉ [224, 256, 384, 512] → assemble (.keccak bits) = none ∧ assemble (.sha3 bits) = none) ∧
  (∀ bits, bits ∉ [128, 256] → assemble (.shake bits) = none)

/-! ### Reset, steps and the register window -/

/-- After reset the 200 bytes of the buffer, offset, rate, delim, DIN, DOUT, FCODE and FCMD are 0, the mode is
Idle, and STATUS reads 0. (R35) -/
def Obligations.ResetValues : Prop :=
  (∀ i, i < 200 → State.reset.S.read i = 0x00) ∧
  State.reset.offset = 0 ∧ State.reset.rate = 0 ∧ State.reset.delim = 0x00 ∧ State.reset.mode = .idle ∧
  State.reset.din = 0 ∧ State.reset.dout = 0 ∧ State.reset.fcode = .none ∧ State.reset.fcmd = 0 ∧
  status State.reset = 0

/-- From every state, Fault included, reset completes and leaves every piece of the block's state at its reset
value. (R200, R35) -/
def Obligations.ResetSetsEverything : Prop :=
  ∀ s : State, ∃ t, perform .reset s = .next t ∧
    t.S = State.reset.S ∧ t.offset = 0 ∧ t.rate = 0 ∧ t.delim = 0 ∧ t.mode = .idle ∧ t.din = 0 ∧ t.dout = 0 ∧
    t.fcode = .none ∧ t.fcmd = 0

/-- A step takes the host's next access off the host's list and performs it; when that access writes to CMD a word
that decodes, the step is the decoded command's meaning; with no access left the state is kept. The list of
accesses is the model's (log entry 1). (R15, R23, R59) -/
def Obligations.StepRunsTheDecodedCommand : Prop :=
  (∀ (s : State) (c : Word) (i : Instr) (rest : List HostAction),
    s.pending = .write 0x00 64 c :: rest → decode c = .ok i → step s = exec i { s with pending := rest }) ∧
  (∀ (s : State) (a : HostAction) (rest : List HostAction),
    s.pending = a :: rest → step s = perform a { s with pending := rest }) ∧
  (∀ s : State, s.pending = [] → step s = .next s)

/-- Running the machine for as many steps as the host has accesses is performing the accesses one after another,
in host order. The list of accesses is the model's (log entry 1). (R63, R59) -/
def Obligations.RunPerformsAccessesInOrder : Prop :=
  ∀ (as : List HostAction) (s : State),
    Host.Core.run core as.length ({ s with pending := as } : State) = performAll as { s with pending := [] }

/-- STATUS shows the mode's code, offset, rate, delim and the fault code in their fields, and zero in the reserved
ones; RATE is 0 while Idle; it reads 0 after reset; a read of it changes nothing in the block and a write to it
nothing at all. (`observed` is where the model keeps the values read, log entry 1.) (R29) -/
def Obligations.StatusFields : Prop :=
  status State.reset = 0 ∧
  ∀ s : State,
    (status s).extractLsb' 0 3 =
      (match s.mode with
        | .idle => 0#3 | .absorbing => 1#3 | .squeezing => 2#3 | .consumed => 3#3 | .fault => 4#3) ∧
    (status s).extractLsb' 3 5 = 0#5 ∧
    (status s).extractLsb' 8 8 = s.offset ∧
    (status s).extractLsb' 16 8 = s.rate ∧
    (status s).extractLsb' 24 8 = s.delim ∧
    (status s).extractLsb' 32 4 = codeNumber s.fcode ∧
    (status s).extractLsb' 36 28 = 0#28 ∧
    (Inv s → s.mode = .idle → (status s).extractLsb' 16 8 = 0#8) ∧
    perform (.read 0x18 64) s = .next { s with observed := s.observed ++ [status s] } ∧
    ∀ v, perform (.write 0x18 64 v) s = .next s

/-- A write to CMD executes the word; a write to DIN stores; a write to any other aligned offset of the window is
ignored; a read returns DIN, DOUT, STATUS or FCMD at their offsets and 0 elsewhere, and changes nothing in the
block; of the accesses, only a write to CMD changes S, offset, rate, delim, mode, DOUT, FCODE or FCMD. (`observed`
is where the model keeps the values read, log entry 1.) (R56) -/
def Obligations.RegisterMap : Prop :=
  ∀ s : State,
    (∀ c, perform (.write 0x00 64 c) s = executeWord c s) ∧
    (∀ v, perform (.write 0x08 64 v) s = .next { s with din := v }) ∧
    (∀ offset v, offset < 0x40 → offset % 8 = 0 → offset ≠ 0x00 → offset ≠ 0x08 →
      perform (.write offset 64 v) s = .next s) ∧
    (∀ offset, offset < 0x40 → offset % 8 = 0 →
      perform (.read offset 64) s = .next { s with observed := s.observed ++
        [if offset = 0x08 then s.din else if offset = 0x10 then s.dout else if offset = 0x18 then status s
          else if offset = 0x20 then s.fcmd else 0] }) ∧
    (∀ a t, perform a s = .next t → a ≠ .reset → (∀ c, a ≠ .write 0x00 64 c) →
      t.S = s.S ∧ t.offset = s.offset ∧ t.rate = s.rate ∧ t.delim = s.delim ∧ t.mode = s.mode ∧
        t.dout = s.dout ∧ t.fcode = s.fcode ∧ t.fcmd = s.fcmd)

/-- A host access in the window that is not 64 bits wide or not aligned to 8 bytes has no move: the model stops
with hostBadAccess, which carries the bus's response, the named parameter HOST_BAD_ACCESS (log entry 3); one at an
offset from 0x40 on stops with outsideWindow (log entry 4). That the model stops there is its own choice. (R57,
R9) -/
def Obligations.BadAccessesHaveNoMove : Prop :=
  ∀ (s : State) (offset width : Nat) (v : Word),
    (offset < 0x40 → width ≠ 64 ∨ offset % 8 ≠ 0 →
      perform (.read offset width) s = .fault (.hostBadAccess (Config.hostBadAccess offset width)) ∧
      perform (.write offset width v) s = .fault (.hostBadAccess (Config.hostBadAccess offset width))) ∧
    (0x40 ≤ offset →
      perform (.read offset width) s = .fault .outsideWindow ∧
      perform (.write offset width v) s = .fault .outsideWindow)

/-- A repeated DIN write is one DIN write; a repeated read returns the same value twice and changes nothing in the
block; each CMD write, repeated or not, executes its command. (`observed` is where the model keeps the values
read, log entry 1.) (R60) -/
def Obligations.AccessesAreIdempotentButCmd : Prop :=
  ∀ s : State,
    (∀ v, performAll [.write 0x08 64 v, .write 0x08 64 v] s = perform (.write 0x08 64 v) s) ∧
    (∀ offset, offset < 0x40 → offset % 8 = 0 → offset ≠ 0x00 → ∀ v, offset ≠ 0x08 →
      performAll [.write offset 64 v, .write offset 64 v] s = perform (.write offset 64 v) s) ∧
    (∀ offset, offset < 0x40 → offset % 8 = 0 →
      ∃ v, performAll [.read offset 64, .read offset 64] s =
        .next { s with observed := s.observed ++ [v, v] }) ∧
    (∀ c, performAll [.write 0x00 64 c, .write 0x00 64 c] s =
      match executeWord c s with
      | .next t => executeWord c t
      | .fault r => .fault r
      | .refused r => .refused r)

/-- A read from a state and the same read from that state with any other buffer return the same value: the host
can never read S. (R26, R31) -/
def Obligations.NoReadExposesTheBuffer : Prop :=
  ∀ (s : State) (m : Memory) (offset width : Nat) (t : State),
    perform (.read offset width) s = .next t →
      perform (.read offset width) { s with S := m } = .next { t with S := m }

/-- A read of DIN returns the last value the host wrote; every access leaves DIN as it was, but reset, which
clears it, and the host's own write; no command changes it. (R27) -/
def Obligations.DinChangesOnlyByHostWrite : Prop :=
  (∀ (s : State) (v : Word), performAll [.write 0x08 64 v, .read 0x08 64] s =
    .next { s with din := v, observed := s.observed ++ [v] }) ∧
  (∀ (i : Instr) (s t : State), exec i s = .next t → t.din = s.din) ∧
  (∀ (a : HostAction) (s t : State), perform a s = .next t →
    t.din = s.din ∨ (a = .reset ∧ t.din = 0) ∨ ∃ v, a = .write 0x08 64 v ∧ t.din = v)

/-- A permitted SQUEEZE or FINAL of n bytes leaves in DOUT the n bytes SqueezeByte yields (after padding, for a
FINAL that pads) and zero above them, so 0 for n = 0; a permitted INIT and reset set it to 0; ABSORB, PAD,
faulting commands and ignored commands leave it; host writes to it are ignored. (R28) -/
def Obligations.DoutContents : Prop :=
  (∀ (s t : State) (n : BitVec 4), s.mode ≠ .fault → exec (.squeeze n) s = .next t → t.mode ≠ .fault →
    ∃ bs u, squeezeBytes n.toNat s = .next (bs, u) ∧
      ∀ k, k < 8 → regByte t.dout k = if k < n.toNat then bs.getD k 0 else 0) ∧
  (∀ (s t : State) (n : BitVec 4), s.mode ≠ .fault → exec (.final n) s = .next t → t.mode ≠ .fault →
    ∃ p bs u, (if s.mode = .absorbing then exec .pad s = .next p else p = s) ∧
      squeezeBytes n.toNat p = .next (bs, u) ∧
      ∀ k, k < 8 → regByte t.dout k = if k < n.toNat then bs.getD k 0 else 0) ∧
  (∀ (s t : State) (rate delim : Byte), exec (.init rate delim) s = .next t → t.mode ≠ .fault → t.dout = 0) ∧
  (∀ (s t : State), perform .reset s = .next t → t.dout = 0) ∧
  (∀ (s t : State) (n : BitVec 4), exec (.absorb n) s = .next t → t.dout = s.dout) ∧
  (∀ (s t : State), exec .pad s = .next t → t.dout = s.dout) ∧
  (∀ (s t : State) (c : Word), executeWord c s = .next t → t.mode = .fault → t.dout = s.dout) ∧
  (∀ (s : State) (v : Word), perform (.write 0x10 64 v) s = .next s)

/-- FCMD is 0 after reset; on fault entry it takes the full 64-bit CMD value; nothing else changes it; host writes
to it are ignored. (R30) -/
def Obligations.FcmdRecordsTheFaultingCommand : Prop :=
  State.reset.fcmd = 0 ∧
  (∀ (s : State) (v : Word), perform (.write 0x20 64 v) s = .next s) ∧
  (∀ (c : Word) (s t : State), s.mode ≠ .fault → executeWord c s = .next t → t.mode = .fault → t.fcmd = c) ∧
  (∀ (a : HostAction) (s t : State), perform a s = .next t →
    t.fcmd = s.fcmd ∨ (a = .reset ∧ t.fcmd = 0) ∨
      ∃ c, a = .write 0x00 64 c ∧ s.mode ≠ .fault ∧ t.mode = .fault)

/-- Every host action that completes leaves rate and delim as they were, unless it is reset or a CMD write of an
INIT command's word. (R34) -/
def Obligations.RateAndDelimWrittenOnlyByInitAndReset : Prop :=
  ∀ (a : HostAction) (s t : State), perform a s = .next t →
    (t.rate = s.rate ∧ t.delim = s.delim) ∨ a = .reset ∨
      ∃ rate delim, a = .write 0x00 64 (encode (.init rate delim))

/-! ### Invariants and completion -/

/-- From every state that meets the invariants, a step that answers a next state gives one that meets them: the
window bounds in the three modes of a computation, the blank state in Idle, a recorded code exactly in Fault, and
the buffer's canonical form; and a step into Fault keeps rate, offset and delim. The spec marks this as its own
inference (R33, "[derived: from rule R130, rule R131, rule R133 and rule R174]"). The buffer's form and FCMD = 0
outside Fault are the model's (log entries 6 and 12). (R130, R131, R133, R174) -/
def Obligations.StepKeepsTheInvariants : Prop :=
  ∀ s t : State, Inv s → step s = .next t →
    Inv t ∧ (s.mode ≠ .fault → t.mode = .fault → t.rate = s.rate ∧ t.offset = s.offset ∧ t.delim = s.delim)

/-- The reset state meets the invariants of R33, with no fault recorded: it is a launch state of R203. (R33, R35)
-/
def Obligations.ResetMeetsTheInvariants : Prop :=
  Launch State.reset

/-- In every state that meets the invariants, every CMD value and every command answers a next state; a counted
command that goes ahead moves at most 8 bytes; and a command performs at most 9 permutations, which FINAL 8 from
Absorbing at rate 1 attains. The spec marks this as its own inference (R207, "[derived: from 41_sponge.md rule
R144]"). (R133, R134, R135, R136, R137) -/
def Obligations.EveryCommandCompletes : Prop :=
  (∀ (c : Word) (s : State), Inv s → ∃ t, executeWord c s = .next t) ∧
  (∀ (i : Instr) (s : State), Inv s → (∃ t, exec i s = .next t) ∧ permuteCount i s ≤ 9) ∧
  (∀ (n : BitVec 4) (i : Instr) (s t : State), i ∈ [.absorb n, .squeeze n, .final n] → s.mode ≠ .fault →
    exec i s = .next t → t.mode ≠ .fault → n.toNat ≤ 8) ∧
  (∀ s : State, Inv s → s.mode = .absorbing → s.rate = 1 → permuteCount (.final 8) s = 9)

/-! ### Faults -/

/-- A CMD write that takes the block from another mode into Fault changes only FCODE, to the code of a fault,
FCMD, to the CMD value, and mode; the faulting command has no partial effect; STATUS then reads MODE 4, the code,
and the old OFFSET, RATE and DELIM. (R174) -/
def Obligations.FaultEntryChangesNothingElse : Prop :=
  ∀ (c : Word) (s t : State), s.mode ≠ .fault → executeWord c s = .next t → t.mode = .fault →
    ∃ f, f ≠ .none ∧ t = faulted f c s ∧
      (status t).extractLsb' 0 3 = 4#3 ∧ (status t).extractLsb' 32 4 = codeNumber f ∧
      (status t).extractLsb' 8 8 = s.offset ∧ (status t).extractLsb' 16 8 = s.rate ∧
      (status t).extractLsb' 24 8 = s.delim

/-- For every CMD value: in Fault it is ignored; in another mode the first of R173's checks that fails on the raw
word and the mode decides the one code recorded, whose number is R171's; where no check fails, and the invariants
hold, the command completes outside Fault with no code recorded. No FCODE from 7 on ever shows. (R171, R173) -/
def Obligations.FirstFailingCheckDecides : Prop :=
  ∀ (c : Word) (s : State),
    (s.mode = .fault → executeWord c s = .next s) ∧
    (s.mode ≠ .fault → ∀ f, decidingCode c s = some f →
      executeWord c s = .next (faulted f c s) ∧ (status (faulted f c s)).extractLsb' 32 4 = codeNumber f) ∧
    (s.mode ≠ .fault → decidingCode c s = none → Inv s →
      ∃ t, executeWord c s = .next t ∧ t.mode ≠ .fault ∧ t.fcode = .none) ∧
    (status s).extractLsb' 32 4 ≤ 6#4

/-- In Fault a CMD write of any value, and every command, leaves the state as it is; a DIN write still stores; a
read of every register still returns its value. (`observed` is where the model keeps the values read, log entry
1.) (R176) -/
def Obligations.FaultModeIgnoresCommands : Prop :=
  ∀ s : State, s.mode = .fault →
    (∀ c, perform (.write 0x00 64 c) s = .next s) ∧
    (∀ i, exec i s = .next s) ∧
    (∀ v, perform (.write 0x08 64 v) s = .next { s with din := v }) ∧
    (∀ offset, offset < 0x40 → offset % 8 = 0 →
      perform (.read offset 64) s = .next { s with observed := s.observed ++
        [if offset = 0x08 then s.din else if offset = 0x10 then s.dout else if offset = 0x18 then status s
          else if offset = 0x20 then s.fcmd else 0] })

/-- A host action that takes the block out of Fault is reset, which clears FCODE and FCMD; INIT does not clear a
fault. (R177) -/
def Obligations.OnlyResetLeavesFault : Prop :=
  (∀ (a : HostAction) (s t : State), s.mode = .fault → perform a s = .next t → t.mode ≠ .fault → a = .reset) ∧
  (∀ s t : State, perform .reset s = .next t → t.mode = .idle ∧ t.fcode = .none ∧ t.fcmd = 0) ∧
  (∀ (s : State) (rate delim : Byte), s.mode = .fault → exec (.init rate delim) s = .next s)

/-- However many host actions other than reset follow a fault, the mode, FCODE and FCMD stay as the fault left
them. The spec marks this as its own inference (R178, "[derived: from rule R173 and rule R176]"). (R173, R176) -/
def Obligations.FirstFaultIsKept : Prop :=
  ∀ (as : List HostAction) (s t : State), s.mode = .fault → .reset ∉ as → performAll as s = .next t →
    t.mode = .fault ∧ t.fcode = s.fcode ∧ t.fcmd = s.fcmd

/-- In sound states ABSORB of 0..8 bytes of any value in Absorbing and SQUEEZE of 0..8 bytes in Squeezing raise no
fault; and the same CMD value in two sound states of one mode, not Fault, whatever their buffers, cursors,
parameters and data registers, faults in both or in neither, with the same code. That the permutation raises no
fault is its type. (R185) -/
def Obligations.FaultsDoNotDependOnData : Prop :=
  (∀ (s : State) (n : BitVec 4), Inv s → s.mode = .absorbing → n.toNat ≤ 8 →
    ∃ t, exec (.absorb n) s = .next t ∧ t.mode = .absorbing ∧ t.fcode = .none) ∧
  (∀ (s : State) (n : BitVec 4), Inv s → s.mode = .squeezing → n.toNat ≤ 8 →
    ∃ t, exec (.squeeze n) s = .next t ∧ t.mode = .squeezing ∧ t.fcode = .none) ∧
  (∀ (c : Word) (s s' : State), Inv s → Inv s' → s.mode = s'.mode → s.mode ≠ .fault →
    ∃ t t', executeWord c s = .next t ∧ executeWord c s' = .next t' ∧
      (t.mode = .fault ↔ t'.mode = .fault) ∧ t.fcode = t'.fcode)

/-! ### Modes -/

/-- In a sound state a command with legal operands completes as R138's table says: in the next mode with no code
recorded, or in Fault with the cell's code; in Fault nothing happens; and in every other mode the decode faults
come first. (R138) -/
def Obligations.ModeTransitions : Prop :=
  ∀ (s : State),
    (∀ i : Instr, Inv s → i.wellFormed = true →
      match fsmCell s.mode i with
      | .ok m => ∃ t, exec i s = .next t ∧ t.mode = m ∧ (if s.mode = .fault then t = s else t.fcode = .none)
      | .error f => exec i s = .next (faulted f (encode i) s)) ∧
    (∀ (rate delim : Byte), s.mode ≠ .fault → ¬ (1 ≤ rate.toNat ∧ rate.toNat ≤ 199) →
      exec (.init rate delim) s = .next (faulted .badRate (encode (.init rate delim)) s)) ∧
    (∀ (n : BitVec 4) (i : Instr), s.mode ≠ .fault → 8 < n.toNat → i ∈ [.absorb n, .squeeze n, .final n] →
      exec i s = .next (faulted .badCount (encode i) s)) ∧
    (∀ c : Word, s.mode ≠ .fault → IllegalWord c → executeWord c s = .next (faulted .illegalCommand c s))

/-- Reset leaves Idle; a host action that reaches Absorbing from another mode is a CMD write of an INIT command's
word; a host action that leaves Fault is reset. The spec marks this as its own inference (R139, "[derived: from
rule R138 and 60_exceptions.md rule R177]"). (R138, R177, R200) -/
def Obligations.OnlyInitReachesAbsorbing : Prop :=
  (∀ s t : State, perform .reset s = .next t → t.mode = .idle) ∧
  (∀ (a : HostAction) (s t : State), perform a s = .next t → s.mode ≠ .absorbing → t.mode = .absorbing →
    ∃ rate delim, a = .write 0x00 64 (encode (.init rate delim))) ∧
  (∀ (a : HostAction) (s t : State), perform a s = .next t → s.mode = .fault → t.mode ≠ .fault → a = .reset)

/-! ### The commands -/

/-- In a mode other than Fault, INIT with a rate of 1..199 and any delimiter zeroes the buffer, the cursor and
DOUT, sets rate and delim and enters Absorbing, whatever was going on; with another rate it raises BAD_RATE; a
word with OP 1 and a nonzero CNT or RES raises ILLEGAL_COMMAND; in Fault INIT is ignored. (R133) -/
def Obligations.InitStartsAFreshComputation : Prop :=
  (∀ (s : State) (rate delim : Byte), s.mode ≠ .fault → 1 ≤ rate.toNat → rate.toNat ≤ 199 →
    exec (.init rate delim) s = .next { s with
      S := State.reset.S, offset := 0, rate := rate, delim := delim, dout := 0, mode := .absorbing }) ∧
  (∀ i, i < 200 → State.reset.S.read i = 0) ∧
  (∀ (s : State) (rate delim : Byte), s.mode ≠ .fault → rate.toNat = 0 ∨ 200 ≤ rate.toNat →
    exec (.init rate delim) s = .next (faulted .badRate (encode (.init rate delim)) s)) ∧
  (∀ (s : State) (c : Word), s.mode ≠ .fault → c.extractLsb' 0 4 = 1#4 →
    c.extractLsb' 24 40 ≠ 0#40 ∨ c.extractLsb' 4 4 ≠ 0#4 →
    executeWord c s = .next (faulted .illegalCommand c s)) ∧
  (∀ (s : State) (rate delim : Byte), s.mode = .fault → exec (.init rate delim) s = .next s)

/-- In a window, absorbing a byte XORs it into the buffer's byte at offset and changes no other byte; then offset
moves on, or, when the window is full, the whole buffer is permuted and offset is 0; nothing else changes, and
offset stays below rate. (R130) -/
def Obligations.AbsorbByteRule : Prop :=
  ∀ (s : State) (b : Byte), Window s → s.S.wf →
    ∃ t u, absorbByte b s = .next t ∧ u.wf ∧
      (∀ i, u.read i = if i = s.offset.toNat then s.S.read i ^^^ b else s.S.read i) ∧
      (s.offset.toNat + 1 = s.rate.toNat → t = { s with S := permute u, offset := 0 }) ∧
      (s.offset.toNat + 1 ≠ s.rate.toNat →
        t = { s with S := u, offset := t.offset } ∧ t.offset.toNat = s.offset.toNat + 1) ∧
      t.offset.toNat < t.rate.toNat

/-- In a sound state in Absorbing, ABSORB of n bytes, n at most 8, completes; it changes only the buffer and the
cursor, which moves by n modulo rate; while the window is not filled it XORs bytes 0 to n-1 of DIN, in order, onto
the bytes from offset on and changes no other byte; when it is filled once, the bytes up to the end of the window
are XORed, the whole buffer is permuted, and the remaining bytes are XORed from index 0 on. With n = 0 nothing
changes. (R134, R130) -/
def Obligations.AbsorbResult : Prop :=
  ∀ (s : State) (n : BitVec 4), Inv s → s.mode = .absorbing → n.toNat ≤ 8 →
    ∃ t, exec (.absorb n) s = .next t ∧ t = { s with S := t.S, offset := t.offset } ∧ t.S.wf ∧
      t.offset.toNat = (s.offset.toNat + n.toNat) % s.rate.toNat ∧
      (s.offset.toNat + n.toNat < s.rate.toNat → ∀ i, t.S.read i =
        if s.offset.toNat ≤ i ∧ i < s.offset.toNat + n.toNat then
          s.S.read i ^^^ regByte s.din (i - s.offset.toNat)
        else s.S.read i) ∧
      (s.rate.toNat ≤ s.offset.toNat + n.toNat → s.offset.toNat + n.toNat < 2 * s.rate.toNat →
        ∃ u : Memory, u.wf ∧
          (∀ i, u.read i =
            if s.offset.toNat ≤ i ∧ i < s.rate.toNat then s.S.read i ^^^ regByte s.din (i - s.offset.toNat)
            else s.S.read i) ∧
          ∀ i, t.S.read i =
            if i < s.offset.toNat + n.toNat - s.rate.toNat then
              (permute u).read i ^^^ regByte s.din (s.rate.toNat - s.offset.toNat + i)
            else (permute u).read i) ∧
      (n = 0 → t = s)

/-- Two states that differ only in bytes n and above of DIN go through ABSORB n alike. (R134, 92_eei_decisions.md
D35) -/
def Obligations.DinBytesBeyondTheCountAreIgnored : Prop :=
  ∀ (s t : State) (n : BitVec 4) (v : Word), (∀ k, k < n.toNat → regByte v k = regByte s.din k) →
    exec (.absorb n) s = .next t → exec (.absorb n) { s with din := v } = .next { t with din := v }

/-- In a sound state in Absorbing, PAD completes: the pad block (delim at offset, 0x80 at rate-1, both OR-ed in
one byte where these coincide) is XORed into the rate window, no byte outside it is touched, the whole buffer is
permuted once, offset is 0 and the mode Squeezing; nothing else changes. (R132) -/
def Obligations.PadResult : Prop :=
  ∀ s : State, Inv s → s.mode = .absorbing →
    ∃ u : Memory, u.wf ∧
      (∀ i, u.read i =
        if i < s.rate.toNat then s.S.read i ^^^ padCase s.offset.toNat s.rate.toNat s.delim i
        else s.S.read i) ∧
      padAndTransition s = .next { s with S := permute u, offset := 0, mode := .squeezing } ∧
      exec .pad s = .next { s with S := permute u, offset := 0, mode := .squeezing }

/-- In a sound state in Absorbing with offset = rate - 1, PAD with a delimiter and PAD with that delimiter's bit 7
flipped leave the same buffer. (R132, 93_implementation_defined.md I5) -/
def Obligations.DelimiterBit7IsLostAtTheWindowsEnd : Prop :=
  ∀ s : State, Inv s → s.mode = .absorbing → s.offset.toNat + 1 = s.rate.toNat →
    ∃ t, exec .pad s = .next t ∧
      exec .pad { s with delim := s.delim ^^^ 0x80 } = .next { t with delim := s.delim ^^^ 0x80 }

/-- In a window, squeezing a byte yields the buffer's byte at offset; then offset moves on, or, at the end of the
window, the whole buffer is permuted and offset is 0; nothing else changes. Up to the window's end, m calls yield
the m bytes from offset on. That m calls yield the next m bytes the spec marks as its own inference (R131,
"[derived: from this rule, by induction on L]"). (R131) -/
def Obligations.SqueezeByteRule : Prop :=
  ∀ s : State, Window s →
    (∃ t, squeezeByte s = .next (s.S.read s.offset.toNat, t) ∧
      (s.offset.toNat + 1 = s.rate.toNat → t = { s with S := permute s.S, offset := 0 }) ∧
      (s.offset.toNat + 1 ≠ s.rate.toNat →
        t = { s with offset := t.offset } ∧ t.offset.toNat = s.offset.toNat + 1)) ∧
    (∀ m, s.offset.toNat + m ≤ s.rate.toNat →
      ∃ t, squeezeBytes m s = .next ((List.range m).map (fun k => s.S.read (s.offset.toNat + k)), t) ∧
        (s.offset.toNat + m = s.rate.toNat → t = { s with S := permute s.S, offset := 0 }) ∧
        (s.offset.toNat + m < s.rate.toNat →
          t = { s with offset := t.offset } ∧ t.offset.toNat = s.offset.toNat + m))

/-- In a sound state in Squeezing, SQUEEZE of n bytes, n at most 8, completes in exactly this state: the buffer
permuted once for every time the cursor reaches rate, the cursor moved by n modulo rate, byte k of DOUT the byte
the cursor shows after k moves, for k below n, and 0 above; nothing else changes. (R136, R131) -/
def Obligations.SqueezeResult : Prop :=
  ∀ (s : State) (n : BitVec 4), Inv s → s.mode = .squeezing → n.toNat ≤ 8 →
    ∃ out : Word,
      exec (.squeeze n) s = .next { s with
        S := permute^[(s.offset.toNat + n.toNat) / s.rate.toNat] s.S
        offset := BitVec.ofNat 8 ((s.offset.toNat + n.toNat) % s.rate.toNat)
        dout := out } ∧
      ∀ k, k < 8 → regByte out k =
        if k < n.toNat then
          (permute^[(s.offset.toNat + k) / s.rate.toNat] s.S).read ((s.offset.toNat + k) % s.rate.toNat)
        else 0

/-- In a sound state, for n at most 8: from Squeezing, FINAL n is SQUEEZE n with the mode then Consumed; from
Absorbing it is PAD followed by SQUEEZE n with the mode then Consumed. All of these complete. (R137,
90_conflicts.md C8) -/
def Obligations.FinalComposesPadAndSqueeze : Prop :=
  ∀ (s : State) (n : BitVec 4), Inv s → n.toNat ≤ 8 →
    (s.mode = .squeezing → ∃ u, exec (.squeeze n) s = .next u ∧
      exec (.final n) s = .next { u with mode := .consumed }) ∧
    (s.mode = .absorbing → ∃ p u, exec .pad s = .next p ∧ exec (.squeeze n) p = .next u ∧
      exec (.final n) s = .next { u with mode := .consumed })

/-- When a command answers a next state: DIN is unchanged, and so are the host's own lists pending and observed
(fields of the model's own choice, log entry 1); FCODE and FCMD change only on entry to Fault, and then everything
else but mode is unchanged; rate and delim change only by INIT; DOUT is unchanged by ABSORB and PAD; offset is
unchanged by SQUEEZE 0 and ABSORB 0. ABSORB that fills no window leaves every byte of the buffer outside the bytes
from offset to offset+n-1; SQUEEZE and a FINAL from Squeezing that reach no window end leave every byte. (R20,
R27, R28, R30, R34, R130, R131, R134, R136, R174) -/
def Obligations.CommandFrames : Prop :=
  (∀ (i : Instr) (s t : State), exec i s = .next t →
    t.din = s.din ∧ t.pending = s.pending ∧ t.observed = s.observed ∧
    (t.mode ≠ .fault → t.fcode = s.fcode ∧ t.fcmd = s.fcmd) ∧
    (t.mode = .fault → t = { s with fcode := t.fcode, fcmd := t.fcmd, mode := .fault }) ∧
    ((∀ rate delim, i ≠ .init rate delim) → t.rate = s.rate ∧ t.delim = s.delim) ∧
    (∀ n, i = .absorb n ∨ i = .pad → t.dout = s.dout) ∧
    (i = .absorb 0 ∨ i = .squeeze 0 → t.offset = s.offset ∧ t.S = s.S)) ∧
  (∀ (n : BitVec 4) (s t : State), s.S.wf → Window s → s.offset.toNat + n.toNat < s.rate.toNat →
    exec (.absorb n) s = .next t →
    ∀ a, ¬ (s.offset.toNat ≤ a ∧ a < s.offset.toNat + n.toNat) → t.S.read a = s.S.read a) ∧
  (∀ (n : BitVec 4) (s t : State), Window s → s.offset.toNat + n.toNat < s.rate.toNat →
    exec (.squeeze n) s = .next t ∨ (s.mode = .squeezing ∧ exec (.final n) s = .next t) →
    ∀ a, t.S.read a = s.S.read a)

/-- AbsorbByte writes only the byte at offset, below rate, before its Permute; PadAndTransition writes only bytes
below rate before its Permute; SqueezeByte writes S only by Permute; and a host action in a sound state that
changes a byte from rate on is reset, an INIT, or a command that performs a Permute. The spec marks this as its
own inference (R142, "[derived: from rule R130, rule R131, rule R132 and rule R133]"). (R130, R131, R132, R133) -/
def Obligations.CapacityWrittenOnlyByPermuteInitAndReset : Prop :=
  (∀ (s t : State) (b : Byte), Window s → s.S.wf → absorbByte b s = .next t →
    ∃ u : Memory, (∀ i, i ≠ s.offset.toNat → u.read i = s.S.read i) ∧ s.offset.toNat < s.rate.toNat ∧
      (t.S = u ∨ t.S = permute u)) ∧
  (∀ s t : State, Window s → s.S.wf → padAndTransition s = .next t →
    ∃ u : Memory, (∀ i, s.rate.toNat ≤ i → u.read i = s.S.read i) ∧ t.S = permute u) ∧
  (∀ (s t : State) (b : Byte), squeezeByte s = .next (b, t) → t.S = s.S ∨ t.S = permute s.S) ∧
  (∀ (a : HostAction) (s t : State) (i : Nat), Inv s → perform a s = .next t → s.rate.toNat ≤ i →
    t.S.read i ≠ s.S.read i →
    a = .reset ∨ (∃ rate delim, a = .write 0x00 64 (encode (.init rate delim))) ∨
      ∃ j, a = .write 0x00 64 (encode j) ∧ 0 < permuteCount j s)

/-- From a sound state: a permitted command performs as many permutations as R144's table says, and these are the
ones its effect holds: INIT none; PAD the one of its padding; SQUEEZE and a FINAL from Squeezing exactly that many
of the buffer; a FINAL from Absorbing that many less one of the padded buffer; ABSORB one for each time its cursor
fills the window. A faulting or ignored command performs none and leaves the buffer. The spec marks this as its
own inference (R144, "[derived: from rules R130 to R137]"). (R130, R131, R132, R133, R134, R135, R136, R137) -/
def Obligations.PermuteCounts : Prop :=
  ∀ (i : Instr) (s t : State), Inv s → exec i s = .next t →
    (t.mode = .fault → permuteCount i s = 0 ∧ t.S = s.S) ∧
    (t.mode ≠ .fault →
      match i with
      | .init _ _ => permuteCount i s = 0 ∧ t.S = []
      | .absorb n => permuteCount i s = (s.offset.toNat + n.toNat) / s.rate.toNat ∧
          boundaryPermutes n.toNat s = permuteCount i s
      | .pad => permuteCount i s = 1 ∧
          t.S = permute (padBuffer s.offset.toNat s.rate.toNat s.delim s.S)
      | .squeeze n => permuteCount i s = (s.offset.toNat + n.toNat) / s.rate.toNat ∧
          boundaryPermutes n.toNat s = permuteCount i s ∧ t.S = permute^[permuteCount i s] s.S
      | .final n =>
        if s.mode = .absorbing then
          permuteCount i s = 1 + n.toNat / s.rate.toNat ∧
            t.S = permute^[permuteCount i s] (padBuffer s.offset.toNat s.rate.toNat s.delim s.S)
        else
          permuteCount i s = (s.offset.toNat + n.toNat) / s.rate.toNat ∧
            boundaryPermutes n.toNat s = permuteCount i s ∧ t.S = permute^[permuteCount i s] s.S)

/-! ### Laws of the sponge -/

/-- From a sound state in Absorbing, absorbing two lists of chunks of at most 8 bytes, empty ones included, that
are the same bytes in the same order, each chunk by a DIN write and an ABSORB of its length, completes and leaves
the same buffer and offset; only DIN may differ. The spec marks this as its own inference (R140, "[derived: from
rule R130 and rule R134]"). (R130, R134) -/
def Obligations.AbsorbSplitIsIrrelevant : Prop :=
  ∀ (s : State) (cs ds : List (List Byte)), Inv s → s.mode = .absorbing →
    (∀ x ∈ cs, x.length ≤ 8) → (∀ x ∈ ds, x.length ≤ 8) → cs.flatten = ds.flatten →
    ∃ t u, performAll (absorbChunks cs) s = .next t ∧ performAll (absorbChunks ds) s = .next u ∧
      t.S = u.S ∧ t.offset = u.offset ∧ t = { u with din := t.din }

/-- From a sound state in Squeezing, two runs of SQUEEZE commands with any counts of at most 8, with a FINAL last
or not, DOUT read after each, complete; each hands the host exactly the bytes that as many calls of SqueezeByte
yield; so the shorter output is a prefix of the longer one. The spec marks this as its own inference (R141,
"[derived: from rule R131, rule R136 and rule R137]"). (R131, R136, R137) -/
def Obligations.SqueezeSplitIsIrrelevant : Prop :=
  ∀ (s : State) (ns ms : List Nat) (k l : Option Nat), Inv s → s.mode = .squeezing →
    (∀ n ∈ ns ++ k.toList, n ≤ 8) → (∀ n ∈ ms ++ l.toList, n ≤ 8) →
    ∃ t u v w, performAll (squeezeProgram ns k) s = .next t ∧ performAll (squeezeProgram ms l) s = .next u ∧
      squeezeBytes (ns ++ k.toList).sum s = .next (runOutput ns k s t, v) ∧
      squeezeBytes (ms ++ l.toList).sum s = .next (runOutput ms l s u, w) ∧
      ((ns ++ k.toList).sum ≤ (ms ++ l.toList).sum → runOutput ns k s t <+: runOutput ms l s u)

/-- DIGEST L assembles to PAD, then SQUEEZE 8 with a read of DOUT m-1 times, then FINAL L-8(m-1) with a read,
where m is max(1, ceil(L/8)), and the last count is 1..8, or 0 when L is 0; from a sound state in Absorbing it
completes in Consumed, and the bytes read are those that L calls of SqueezeByte yield after PAD. The spec marks
this as its own inference (R143, "[derived: from rule R141]"). (R81, R135, R136, R137) -/
def Obligations.DigestYieldsOneSqueeze : Prop :=
  ∀ L m : Nat, m = max 1 ((L + 7) / 8) →
    (if L = 0 then L - 8 * (m - 1) = 0 else 1 ≤ L - 8 * (m - 1) ∧ L - 8 * (m - 1) ≤ 8) ∧
    assemble (.digest L) = some ([.write 0x00 64 0x3]
      ++ (List.replicate (m - 1) [.write 0x00 64 0x84, .read 0x10 64]).flatten
      ++ [.write 0x00 64 (BitVec.ofNat 64 (L - 8 * (m - 1)) <<< 4 ||| 0x5), .read 0x10 64]) ∧
    ∀ s : State, Inv s → s.mode = .absorbing →
      ∃ p bs v t, exec .pad s = .next p ∧ squeezeBytes L p = .next (bs, v) ∧
        performAll (digestActions L) s = .next t ∧ t.mode = .consumed ∧
        runOutput (List.replicate (m - 1) 8) (some (L - 8 * (m - 1))) s t = bs

/-- From a sound state in Absorbing, the expansion of ABSORBB performs AbsorbByte of each of its bytes in order:
the same buffer and offset, and only DIN may differ. (R81, R54) -/
def Obligations.AbsorbbAbsorbsItsBytes : Prop :=
  ∀ (s : State) (bs : List Byte), Inv s → s.mode = .absorbing →
    ∃ as t u, assemble (.absorbb bs) = some as ∧ performAll as s = .next t ∧ absorbBytes bs s = .next u ∧
      t = { u with din := t.din }

/-- In a sound state in Absorbing, with rate a multiple of 8 and offset at the first byte of lane [x,y], ABSORB 8
XORs DIN onto that lane and touches no other lane, before the Permute that follows when it fills the window. The
spec marks this as its own inference (R54, "[derived: from rule R51 and 41_sponge.md rule R130]"). (R51, R130) -/
def Obligations.AlignedWordXorsOntoItsLane : Prop :=
  ∀ (s : State) (x y : Fin 5), Inv s → s.mode = .absorbing → s.rate.toNat % 8 = 0 →
    s.offset.toNat = 8 * (x.val + 5 * y.val) →
    ∃ t u, exec (.absorb 8) s = .next t ∧
      (∀ x' y' : Fin 5, (pack u).lane x' y' =
        if x' = x ∧ y' = y then (pack s.S).lane x' y' ^^^ s.din else (pack s.S).lane x' y') ∧
      (s.offset.toNat + 8 < s.rate.toNat → t.S = u) ∧ (s.offset.toNat + 8 = s.rate.toNat → t.S = permute u)

/-- In every sound state, every one of the 2^64 CMD values completes and leaves exactly the registers and the 200
buffer bytes that the pseudocode of R130 to R137, set down independently over a plain byte function and natural
numbers, computes from the registers and bytes before it. (R130, R131, R132, R133, R134, R135, R136, R137) -/
def Obligations.ModelRefinesThePseudocode : Prop :=
  ∀ (c : Word) (s : State), Inv s →
    ∃ t, executeWord c s = .next t ∧
      Reference.Agrees (Reference.view t) (Reference.cmdWrite c (Reference.view s))

/-! ### The permutation -/

/-- Byte j of lane [x,y] is buffer byte 8(x+5y)+j, packing and unpacking; pack then unpack is the identity on
canonical buffers, unpack then pack the identity on lanes; and Permute is unpack of Keccak-f of pack. The spec
marks this as its own inference (R52, "[derived: from rule R51 and 40_permutation.md rule R101]"). (R51, R101) -/
def Obligations.PackAndUnpackAreInverse : Prop :=
  (∀ (S : Memory) (x y : Fin 5) (j : Nat), j < 8 →
    ((pack S).lane x y).extractLsb' (8 * j) 8 = S.read (8 * (x.val + 5 * y.val) + j)) ∧
  (∀ (A : Lanes) (x y : Fin 5) (j : Nat), j < 8 →
    (unpack A).read (8 * (x.val + 5 * y.val) + j) = (A.lane x y).extractLsb' (8 * j) 8) ∧
  (∀ S : Memory, S.wf → unpack (pack S) = S) ∧
  (∀ A : Lanes, pack (unpack A) = A) ∧
  (∀ S : Memory, permute S = unpack (keccakF (pack S)))

/-- Writing a byte at index i below 200 sets bits 8(i mod 8)+7 to 8(i mod 8) of lane number i/8 to it, leaves that
lane's other bits and leaves every other lane. The spec marks this as its own inference (R55, "[derived: from rule
R51]"). (R51) -/
def Obligations.ByteWriteStaysInItsLane : Prop :=
  ∀ (S : Memory) (i : Nat) (v : Byte) (x y : Fin 5), S.wf → i < 200 →
    (x.val + 5 * y.val ≠ i / 8 → (pack (S.write i v)).lane x y = (pack S).lane x y) ∧
    (x.val + 5 * y.val = i / 8 →
      ((pack (S.write i v)).lane x y).extractLsb' (8 * (i % 8)) 8 = v ∧
      ∀ b, b < 64 → b / 8 ≠ i % 8 →
        ((pack (S.write i v)).lane x y).getLsbD b = ((pack S).lane x y).getLsbD b)

/-- theta, rho, pi, chi, iota at every round index, and Keccak-f itself are bijections of the 25-lane states; so
distinct inputs have distinct outputs. (R109) -/
def Obligations.KeccakIsBijective : Prop :=
  Function.Bijective theta ∧ Function.Bijective rho ∧ Function.Bijective pi ∧ Function.Bijective chi ∧
  (∀ ir, Function.Bijective fun A => iota A ir) ∧ Function.Bijective keccakF ∧
  ∀ A B : Lanes, A ≠ B → keccakF A ≠ keccakF B

/-- The left rotation by any amount moves each bit up by that amount modulo 64, and a rotation by 0 changes
nothing. (R12) -/
def Obligations.RotationMovesBits : Prop :=
  (∀ (v : Word) (n i : Nat), i < 64 → (rotl64 v n).getLsbD ((i + n) % 64) = v.getLsbD i) ∧
  ∀ v : Word, rotl64 v 0 = v

/-- theta leaves a state whose columns all have even parity; rho leaves lane [0,0] and every all-zero or all-one
lane; pi moves the lane at (x,y) to (y,2x+3y) and keeps only (0,0) in place; chi leaves all-zero and all-one rows;
iota always changes lane [0,0] and no other. (R102, R103, R105, R106, R107) -/
def Obligations.StepCornerCases : Prop :=
  (∀ A : Lanes, (∀ x, A.lane x 0 ^^^ A.lane x 1 ^^^ A.lane x 2 ^^^ A.lane x 3 ^^^ A.lane x 4 = 0) → theta A = A) ∧
  (∀ A : Lanes, (rho A).lane 0 0 = A.lane 0 0) ∧
  (∀ (A : Lanes) (x y : Fin 5), A.lane x y = 0 ∨ A.lane x y = BitVec.allOnes 64 →
    (rho A).lane x y = A.lane x y) ∧
  (∀ (A : Lanes) (x y : Fin 5), (pi A).lane y (2 * x + 3 * y) = A.lane x y) ∧
  (∀ x y : Fin 5, (y = x ∧ 2 * x + 3 * y = y) ↔ (x = 0 ∧ y = 0)) ∧
  (∀ (A : Lanes) (y : Fin 5), (∀ x, A.lane x y = 0) ∨ (∀ x, A.lane x y = BitVec.allOnes 64) →
    ∀ x, (chi A).lane x y = A.lane x y) ∧
  (∀ (A : Lanes) (ir : Nat), ir < 24 → (iota A ir).lane 0 0 ≠ A.lane 0 0) ∧
  (∀ (A : Lanes) (ir : Nat) (x y : Fin 5), (x, y) ≠ (0, 0) → (iota A ir).lane x y = A.lane x y)

/-- The offset at the position R104's recurrence reaches at step t is (t+1)(t+2)/2 mod 64, and the offset of [0,0]
is 0; bit 2^j-1 of RC[ir] is rc(j+7ir) of the LFSR, and no other bit is ever set. (R104, R108) -/
def Obligations.TablesFollowTheirRecurrences : Prop :=
  rhoOffset 0 0 = 0 ∧
  (∀ t, t < 24 → rhoOffset (mod5 (rhoWalk t).1) (mod5 (rhoWalk t).2) = rhoTriangular t) ∧
  (∀ ir, ir < 24 → ∀ j, j < 7 → (roundConstant ir).getLsbD (2 ^ j - 1) = rcBit (j + 7 * ir)) ∧
  (∀ ir, ir < 24 → ∀ b, b < 64 → b ∉ [0, 1, 3, 7, 15, 31, 63] → (roundConstant ir).getLsbD b = false)

/-! ### Platforms, unsound states and runs -/

/-- A step of one engine, or a host access in its window, does to that engine what it does to the block alone and
leaves every other engine as it was. The form of the platform, a list of engines and an access that names its
engine, is the model's (log entry 8). (R183) -/
def Obligations.PlatformEnginesAreIndependent : Prop :=
  ∀ (k : Nat) (p q : Platform),
    (Platform.step k p = .next q → ∃ s t, p[k]? = some s ∧ step s = .next t ∧ q[k]? = some t ∧
      q.length = p.length ∧ ∀ j, j ≠ k → q[j]? = p[j]?) ∧
    (∀ offset width v, offset < 0x40 →
      Platform.busWrite k (Config.baseAddr k + offset) width v p = .next q →
      ∃ s t, p[k]? = some s ∧ perform (.write offset width v) s = .next t ∧ q[k]? = some t ∧
        q.length = p.length ∧ ∀ j, j ≠ k → q[j]? = p[j]?) ∧
    (∀ offset width, offset < 0x40 →
      Platform.busRead k (Config.baseAddr k + offset) width p = .next q →
      ∃ s t, p[k]? = some s ∧ perform (.read offset width) s = .next t ∧ q[k]? = some t ∧
        q.length = p.length ∧ ∀ j, j ≠ k → q[j]? = p[j]?)

/-- In an unsound state whose cursor or rate window leaves the buffer, the commands that would touch a byte
outside 0..199 stop with noSuchByte. No run from reset comes to such a state; that the model stops there is its
own choice (log entry 5). (R14, R50) -/
def Obligations.MissingBytesStop : Prop :=
  (∀ (s : State) (n : BitVec 4), s.mode = .absorbing → 200 ≤ s.offset.toNat → 1 ≤ n.toNat → n.toNat ≤ 8 →
    exec (.absorb n) s = .fault .noSuchByte) ∧
  (∀ (s : State) (n : BitVec 4), s.mode = .squeezing → 200 ≤ s.offset.toNat → 1 ≤ n.toNat → n.toNat ≤ 8 →
    exec (.squeeze n) s = .fault .noSuchByte ∧ exec (.final n) s = .fault .noSuchByte) ∧
  (∀ s : State, s.mode = .absorbing → 200 ≤ s.offset.toNat ∨ s.rate.toNat = 0 ∨ 200 < s.rate.toNat →
    exec .pad s = .fault .noSuchByte)

/-- From a sound state, if a run of host actions without a reset ends with no fault recorded, no fault was
recorded at any earlier point of it. (R173, R176, R177, R202, 92_eei_decisions.md D14) -/
def Obligations.SafeRunsMetNoFault : Prop :=
  ∀ (as bs : List HostAction) (s t : State), Inv s → .reset ∉ as ++ bs → SafeRun (as ++ bs) s t →
    ∃ u, SafeRun as s u ∧ SafeRun bs u t
end

