-- ==== Sys2Proof/Laws/Memory.lean ====
section
/-! SUPPORT. The state buffer: read after write, the canonical form, and equality by bytes. -/

namespace Sys2Proof.Machine

@[simp] theorem Memory.read_nil (i : Nat) : Memory.read [] i = 0 := rfl

theorem Memory.read_cons (j : Nat) (b : Byte) (m : Memory) (i : Nat) :
    Memory.read ((j, b) :: m) i = if i = j then b else Memory.read m i := rfl

/-- An index below every listed one reads as zero. -/
theorem Memory.read_of_lt {m : Memory} {i : Nat} (h : ∀ c ∈ m, i < c.1) : m.read i = 0 := by
  induction m with
  | nil => rfl
  | cons c m ih =>
    obtain ⟨j, b⟩ := c
    have hj : i < j := h (j, b) (by simp)
    rw [Memory.read_cons, if_neg (by omega)]
    exact ih fun d hd => h d (by simp [hd])

theorem Memory.read_put {i : Nat} {v : Byte} {m : Memory} (h : m.read i = 0) (k : Nat) :
    (Memory.put i v m).read k = if k = i then v else m.read k := by
  unfold Memory.put
  split
  · next hv => split <;> simp_all
  · rw [Memory.read_cons]

theorem Memory.mem_put {i : Nat} {v : Byte} {m : Memory} {c : Host.Cell} (h : c ∈ Memory.put i v m) :
    (c = (i, v) ∧ v ≠ 0) ∨ c ∈ m := by
  unfold Memory.put at h
  split at h
  · exact .inr h
  · next hv => exact (List.mem_cons.mp h).imp (fun e => ⟨e, hv⟩) id

/-- The canonical form of what is left of the first entry. -/
theorem Memory.wf_tail {c : Host.Cell} {m : Memory} (h : Memory.wf (c :: m)) : m.wf :=
  ⟨(List.pairwise_cons.mp h.1).2, fun d hd => h.2 d (by simp [hd])⟩

theorem Memory.wf_head {j : Nat} {b : Byte} {m : Memory} (h : Memory.wf ((j, b) :: m)) :
    ∀ c ∈ m, j < c.1 := (List.pairwise_cons.mp h.1).1

theorem Memory.wf_nil : Memory.wf [] := ⟨.nil, by simp⟩

theorem Memory.wf_put {i : Nat} {v : Byte} {m : Memory} (hi : i < 200) (hm : m.wf)
    (hlt : ∀ c ∈ m, i < c.1) : (Memory.put i v m).wf := by
  unfold Memory.put
  split
  · exact hm
  · next hv =>
    refine ⟨List.pairwise_cons.mpr ⟨hlt, hm.1⟩, fun c hc => ?_⟩
    rcases List.mem_cons.mp hc with rfl | hc
    · exact ⟨hi, hv⟩
    · exact hm.2 c hc

/-- Read after write. -/
theorem Memory.read_write {m : Memory} (hm : m.wf) (i : Nat) (v : Byte) (k : Nat) :
    (m.write i v).read k = if k = i then v else m.read k := by
  induction m with
  | nil => exact Memory.read_put rfl k
  | cons c m ih =>
    obtain ⟨j, b⟩ := c
    have hhead := Memory.wf_head hm
    unfold Memory.write
    split
    · next hij =>
      refine Memory.read_put (Memory.read_of_lt fun d hd => ?_) k
      rcases List.mem_cons.mp hd with rfl | hd
      · exact hij
      · exact hij.trans (hhead d hd)
    · split
      · next hij =>
        subst hij
        rw [Memory.read_put (Memory.read_of_lt hhead), Memory.read_cons]
        split <;> rfl
      · next hlt hne =>
        rw [Memory.read_cons, Memory.read_cons, ih (Memory.wf_tail hm)]
        split
        · next hkj => rw [if_neg (by omega)]
        · rfl

theorem Memory.mem_write {m : Memory} {i : Nat} {v : Byte} {c : Host.Cell} (h : c ∈ m.write i v) :
    c.1 = i ∨ c ∈ m := by
  induction m with
  | nil => exact (Memory.mem_put h).imp (fun e => by simp [e.1]) id
  | cons d m ih =>
    obtain ⟨j, b⟩ := d
    unfold Memory.write at h
    split at h
    · exact (Memory.mem_put h).imp (fun e => by simp [e.1]) id
    · split at h
      · exact (Memory.mem_put h).imp (fun e => by simp [e.1]) (fun e => by simp [e])
      · rcases List.mem_cons.mp h with rfl | h
        · exact .inr (by simp)
        · exact (ih h).imp id (fun e => by simp [e])

/-- A write inside the buffer keeps the canonical form. -/
theorem Memory.wf_write {m : Memory} (hm : m.wf) {i : Nat} (hi : i < 200) (v : Byte) : (m.write i v).wf := by
  induction m with
  | nil => exact Memory.wf_put hi hm (by simp)
  | cons c m ih =>
    obtain ⟨j, b⟩ := c
    have hhead := Memory.wf_head hm
    have htail := Memory.wf_tail hm
    unfold Memory.write
    split
    · next hij =>
      refine Memory.wf_put hi hm fun d hd => ?_
      rcases List.mem_cons.mp hd with rfl | hd
      · exact hij
      · exact hij.trans (hhead d hd)
    · split
      · next hij => exact Memory.wf_put hi htail (hij ▸ hhead)
      · next hlt hne =>
        refine ⟨List.pairwise_cons.mpr ⟨fun d hd => ?_, (ih htail).1⟩, fun d hd => ?_⟩
        · rcases Memory.mem_write hd with hd | hd
          · show j < d.1
            omega
          · exact hhead d hd
        · rcases List.mem_cons.mp hd with rfl | hd
          · exact hm.2 _ (by simp)
          · exact (ih htail).2 d hd

theorem Memory.mem_fill {f : Nat → Byte} {n i : Nat} {c : Host.Cell} (h : c ∈ Memory.fill f i n) :
    i ≤ c.1 ∧ c.1 < i + n ∧ c.2 = f c.1 ∧ c.2 ≠ 0 := by
  induction n generalizing i with
  | zero => simp [Memory.fill] at h
  | succ n ih =>
    rcases Memory.mem_put h with ⟨rfl, hv⟩ | h
    · exact ⟨le_refl _, by omega, rfl, hv⟩
    · obtain ⟨h1, h2, h3, h4⟩ := ih h
      exact ⟨by omega, by omega, h3, h4⟩

theorem Memory.read_fill (f : Nat → Byte) (n i k : Nat) :
    (Memory.fill f i n).read k = if i ≤ k ∧ k < i + n then f k else 0 := by
  induction n generalizing i k with
  | zero => rw [if_neg (by omega)]; rfl
  | succ n ih =>
    have hlow : (Memory.fill f (i + 1) n).read i = 0 := by rw [ih, if_neg (by omega)]
    show (Memory.put i (f i) _).read k = _
    rw [Memory.read_put hlow, ih]
    by_cases hk : k = i
    · subst hk; rw [if_pos rfl, if_pos (by omega)]
    · rw [if_neg hk]
      by_cases h : i ≤ k ∧ k < i + (n + 1)
      · rw [if_pos h, if_pos (by omega)]
      · rw [if_neg h, if_neg (by omega)]

theorem Memory.wf_fill (f : Nat → Byte) (n i : Nat) (h : i + n ≤ 200) : (Memory.fill f i n).wf := by
  induction n generalizing i with
  | zero => exact Memory.wf_nil
  | succ n ih =>
    refine Memory.wf_put (by omega) (ih (i + 1) (by omega)) fun c hc => ?_
    have := (Memory.mem_fill hc).1
    omega

/-- What a buffer built from a byte function reads as. -/
@[simp] theorem Memory.read_ofFn (f : Nat → Byte) (i : Nat) :
    (Memory.ofFn f).read i = if i < 200 then f i else 0 := by
  simp [Memory.ofFn, Memory.read_fill]

/-- A buffer built from a byte function is canonical. -/
@[simp] theorem Memory.wf_ofFn (f : Nat → Byte) : (Memory.ofFn f).wf := Memory.wf_fill f 200 0 (by omega)

/-- An index outside 0..199 is never listed. -/
theorem Memory.read_outside {m : Memory} (hm : m.wf) {i : Nat} (hi : 200 ≤ i) : m.read i = 0 := by
  induction m with
  | nil => rfl
  | cons c m ih =>
    obtain ⟨j, b⟩ := c
    have hj : j < 200 := (hm.2 (j, b) (by simp)).1
    rw [Memory.read_cons, if_neg (by omega)]
    exact ih (Memory.wf_tail hm)

/-- Canonical buffers with equal bytes are equal. -/
theorem Memory.ext {m n : Memory} (hm : m.wf) (hn : n.wf) (h : ∀ i, i < 200 → m.read i = n.read i) : m = n := by
  have hall : ∀ i, m.read i = n.read i := fun i => by
    by_cases hi : i < 200
    · exact h i hi
    · rw [Memory.read_outside hm (by omega), Memory.read_outside hn (by omega)]
  clear h
  induction m generalizing n with
  | nil =>
    cases n with
    | nil => rfl
    | cons d n =>
      obtain ⟨k, e⟩ := d
      have := hall k
      rw [Memory.read_cons, if_pos rfl] at this
      exact absurd this.symm (hn.2 (k, e) (by simp)).2
  | cons c m ih =>
    obtain ⟨j, b⟩ := c
    have hb : b ≠ 0 := (hm.2 (j, b) (by simp)).2
    have hjread := hall j
    rw [Memory.read_cons, if_pos rfl] at hjread
    cases n with
    | nil => exact absurd hjread hb
    | cons d n =>
      obtain ⟨k, e⟩ := d
      have he : e ≠ 0 := (hn.2 (k, e) (by simp)).2
      have hkread := hall k
      rw [Memory.read_cons _ _ n, if_pos rfl] at hkread
      have hjk : j = k := by
        rcases Nat.lt_trichotomy j k with hlt | heq | hgt
        · refine absurd (hjread.trans (Memory.read_of_lt fun x hx => ?_)) hb
          rcases List.mem_cons.mp hx with rfl | hx
          · exact hlt
          · exact hlt.trans (Memory.wf_head hn x hx)
        · exact heq
        · refine absurd (hkread.symm.trans (Memory.read_of_lt fun x hx => ?_)) he
          rcases List.mem_cons.mp hx with rfl | hx
          · exact hgt
          · exact hgt.trans (Memory.wf_head hm x hx)
      subst hjk
      rw [Memory.read_cons, if_pos rfl] at hjread
      subst hjread
      congr 1
      refine ih (Memory.wf_tail hm) (Memory.wf_tail hn) fun i => ?_
      by_cases hi : i = j
      · subst hi
        rw [Memory.read_of_lt (Memory.wf_head hm), Memory.read_of_lt (Memory.wf_head hn)]
      · have := hall i
        rwa [Memory.read_cons, Memory.read_cons, if_neg hi, if_neg hi] at this

/-- A byte of the buffer, where it exists. -/
theorem readByte_eq {i : Nat} (h : i < 200) (s : State) : readByte i s = .next (s.S.read i) := if_pos h

/-- An index that does not exist stops the machine. -/
theorem readByte_stops {i : Nat} (h : 200 ≤ i) (s : State) : readByte i s = .fault .noSuchByte :=
  if_neg (by omega)

/-- A write to a byte of the buffer, where it exists. -/
theorem writeByte_eq {i : Nat} (h : i < 200) (v : Byte) (s : State) :
    writeByte i v s = .next { s with S := s.S.write i v } := if_pos h

end Sys2Proof.Machine
end

