-- ==== Sys2Proof/Laws/Permutation.lean ====
section
/-! SUPPORT. Lanes by position, and the bytes and lanes of the buffer. -/

namespace Sys2Proof.Machine

@[simp] theorem Row.lane_ofFn (f : Fin 5 → Word) (x : Fin 5) : (Row.ofFn f).lane x = f x := by
  fin_cases x <;> rfl

@[simp] theorem Lanes.lane_ofFn (f : Fin 5 → Fin 5 → Word) (x y : Fin 5) : (Lanes.ofFn f).lane x y = f x y := by
  fin_cases x <;> fin_cases y <;> rfl

/-- Lanes are determined by their 25 values. -/
theorem Lanes.ext_lane {A B : Lanes} (h : ∀ x y, A.lane x y = B.lane x y) : A = B := by
  obtain ⟨⟨_, _, _, _, _⟩, ⟨_, _, _, _, _⟩, ⟨_, _, _, _, _⟩, ⟨_, _, _, _, _⟩, ⟨_, _, _, _, _⟩⟩ := A
  obtain ⟨⟨_, _, _, _, _⟩, ⟨_, _, _, _, _⟩, ⟨_, _, _, _, _⟩, ⟨_, _, _, _, _⟩, ⟨_, _, _, _, _⟩⟩ := B
  have r0 := fun x => h x 0
  have r1 := fun x => h x 1
  have r2 := fun x => h x 2
  have r3 := fun x => h x 3
  have r4 := fun x => h x 4
  simp_all [Fin.forall_fin_succ, Lanes.lane, Lanes.row, Row.lane]

/-- theta, lane by lane (R102). -/
theorem theta_lane (A : Lanes) (x y : Fin 5) :
    (theta A).lane x y =
      A.lane x y ^^^ (columnParity A (x - 1) ^^^ rotl64 (columnParity A (x + 1)) 1) := by
  simp [theta, parityMix]

/-- rho, lane by lane (R103). -/
theorem rho_lane (A : Lanes) (x y : Fin 5) : (rho A).lane x y = rotl64 (A.lane x y) (rhoOffset x y) := by
  simp [rho]

/-- pi, lane by lane (R105). -/
theorem pi_lane (A : Lanes) (x y : Fin 5) : (pi A).lane x y = A.lane (x + 3 * y) x := by simp [pi]

/-- chi, lane by lane (R106). -/
theorem chi_lane (A : Lanes) (x y : Fin 5) :
    (chi A).lane x y = A.lane x y ^^^ (~~~ A.lane (x + 1) y &&& A.lane (x + 2) y) := by simp [chi]

/-- iota, lane by lane (R107). -/
theorem iota_lane (A : Lanes) (ir : Nat) (x y : Fin 5) :
    (iota A ir).lane x y = if x = 0 ∧ y = 0 then A.lane x y ^^^ roundConstant ir else A.lane x y := by
  fin_cases x <;> fin_cases y <;> simp [iota, Lanes.lane, Lanes.row, Row.lane]

/-- Byte `k` of the value whose bytes are `f 0, …, f (n-1)`. -/
theorem byteOf_wordOfFn (f : Nat → Byte) (n k : Nat) (hn : n ≤ 8) (hk : k < 8) :
    byteOf (wordOfFn f n) k = if k < n then f k else 0 := by
  have bit : ∀ (n : Nat), n ≤ 8 → ∀ i, i < 64 →
      (wordOfFn f n).getLsbD i = (decide (i / 8 < n) && (f (i / 8)).getLsbD (i % 8)) := by
    intro n
    induction n with
    | zero => intro _ i _; simp [wordOfFn]
    | succ n ih =>
      intro hn i hi
      rw [wordOfFn, BitVec.getLsbD_or, ih (by omega) i hi, BitVec.getLsbD_shiftLeft, BitVec.zeroExtend,
        BitVec.getLsbD_setWidth]
      rcases Nat.lt_trichotomy (i / 8) n with h | h | h
      · simp [h, show i / 8 < n + 1 by omega, show i < 8 * n by omega]
      · subst h
        have h1 : ¬ i < 8 * (i / 8) := by omega
        have h2 : i - 8 * (i / 8) = i % 8 := by omega
        simp [h1, h2, hi, show i % 8 < 64 by omega]
      · have h1 : ¬ i < 8 * n := by omega
        have h2 : (f n).getLsbD (i - 8 * n) = false := BitVec.getLsbD_of_ge _ _ (by omega)
        simp [h1, h2, show ¬ i / 8 < n by omega, show ¬ i / 8 < n + 1 by omega]
  apply BitVec.eq_of_getLsbD_eq
  intro j hj
  rw [byteOf, BitVec.getLsbD_extractLsb', bit n hn (8 * k + j) (by omega)]
  have h1 : (8 * k + j) / 8 = k := by omega
  have h2 : (8 * k + j) % 8 = j := by omega
  by_cases h : k < n <;> simp [h1, h2, h, hj]

/-- A 64-bit value is its eight bytes. -/
theorem word_ext_bytes {v w : Word} (h : ∀ k, k < 8 → byteOf v k = byteOf w k) : v = w := by
  apply BitVec.eq_of_getLsbD_eq
  intro i hi
  have hb := congrArg (fun b => BitVec.getLsbD b (i % 8)) (h (i / 8) (by omega))
  simp only [byteOf, BitVec.getLsbD_extractLsb', show i % 8 < 8 by omega, decide_true, Bool.true_and] at hb
  have hi' : 8 * (i / 8) + i % 8 = i := by omega
  rwa [hi'] at hb

/-- Byte `j` of the packed lane `A[x,y]` (R51). -/
theorem byteOf_pack (S : Memory) (x y : Fin 5) (j : Nat) (hj : j < 8) :
    byteOf ((pack S).lane x y) j = S.read (8 * (x.val + 5 * y.val) + j) := by
  rw [pack, Lanes.lane_ofFn, byteOf_wordOfFn _ _ _ (le_refl 8) hj, if_pos hj]

/-- The bytes of an unpacked buffer (R52). -/
theorem read_unpack (A : Lanes) {i : Nat} (hi : i < 200) : (unpack A).read i = laneByte A i := by
  simp [unpack, hi]

@[simp] theorem wf_unpack (A : Lanes) : (unpack A).wf := Memory.wf_ofFn _

/-- A permuted buffer is canonical. -/
@[simp] theorem wf_permute (S : Memory) : (permute S).wf := wf_unpack _

/-- Byte `j` of lane number `x + 5*y`, as a byte of the buffer (R52). -/
theorem laneByte_lane (A : Lanes) (x y : Fin 5) {j : Nat} (hj : j < 8) :
    laneByte A (8 * (x.val + 5 * y.val) + j) = byteOf (A.lane x y) j := by
  have h1 : (8 * (x.val + 5 * y.val) + j) / 8 = x.val + 5 * y.val := by omega
  have h2 : (8 * (x.val + 5 * y.val) + j) % 8 = j := by omega
  have h3 : mod5 (x.val + 5 * y.val) = x := by
    apply Fin.ext
    show (x.val + 5 * y.val) % 5 = x.val
    omega
  have h4 : mod5 ((x.val + 5 * y.val) / 5) = y := by
    apply Fin.ext
    show (x.val + 5 * y.val) / 5 % 5 = y.val
    omega
  rw [laneByte, h1, h2, h3, h4]

end Sys2Proof.Machine
end

