-- ==== Sys2Proof/Laws/State.lean ====
section
/-! SUPPORT. What each named update of the state does to each field. -/

namespace Sys2Proof.Machine

variable (s : State)

@[simp] theorem State.setDin_S (v : Word) : (s.setDin v).S = s.S := rfl
@[simp] theorem State.setDin_offset (v : Word) : (s.setDin v).offset = s.offset := rfl
@[simp] theorem State.setDin_rate (v : Word) : (s.setDin v).rate = s.rate := rfl
@[simp] theorem State.setDin_delim (v : Word) : (s.setDin v).delim = s.delim := rfl
@[simp] theorem State.setDin_mode (v : Word) : (s.setDin v).mode = s.mode := rfl
@[simp] theorem State.setDin_din (v : Word) : (s.setDin v).din = v := rfl
@[simp] theorem State.setDin_dout (v : Word) : (s.setDin v).dout = s.dout := rfl
@[simp] theorem State.setDin_fcode (v : Word) : (s.setDin v).fcode = s.fcode := rfl
@[simp] theorem State.setDin_fcmd (v : Word) : (s.setDin v).fcmd = s.fcmd := rfl
@[simp] theorem State.setDin_pending (v : Word) : (s.setDin v).pending = s.pending := rfl
@[simp] theorem State.setDin_observed (v : Word) : (s.setDin v).observed = s.observed := rfl

@[simp] theorem State.setDout_S (v : Word) : (s.setDout v).S = s.S := rfl
@[simp] theorem State.setDout_offset (v : Word) : (s.setDout v).offset = s.offset := rfl
@[simp] theorem State.setDout_rate (v : Word) : (s.setDout v).rate = s.rate := rfl
@[simp] theorem State.setDout_delim (v : Word) : (s.setDout v).delim = s.delim := rfl
@[simp] theorem State.setDout_mode (v : Word) : (s.setDout v).mode = s.mode := rfl
@[simp] theorem State.setDout_din (v : Word) : (s.setDout v).din = s.din := rfl
@[simp] theorem State.setDout_dout (v : Word) : (s.setDout v).dout = v := rfl
@[simp] theorem State.setDout_fcode (v : Word) : (s.setDout v).fcode = s.fcode := rfl
@[simp] theorem State.setDout_fcmd (v : Word) : (s.setDout v).fcmd = s.fcmd := rfl
@[simp] theorem State.setDout_pending (v : Word) : (s.setDout v).pending = s.pending := rfl
@[simp] theorem State.setDout_observed (v : Word) : (s.setDout v).observed = s.observed := rfl

@[simp] theorem State.setMode_S (m : Mode) : (s.setMode m).S = s.S := rfl
@[simp] theorem State.setMode_offset (m : Mode) : (s.setMode m).offset = s.offset := rfl
@[simp] theorem State.setMode_rate (m : Mode) : (s.setMode m).rate = s.rate := rfl
@[simp] theorem State.setMode_delim (m : Mode) : (s.setMode m).delim = s.delim := rfl
@[simp] theorem State.setMode_mode (m : Mode) : (s.setMode m).mode = m := rfl
@[simp] theorem State.setMode_din (m : Mode) : (s.setMode m).din = s.din := rfl
@[simp] theorem State.setMode_dout (m : Mode) : (s.setMode m).dout = s.dout := rfl
@[simp] theorem State.setMode_fcode (m : Mode) : (s.setMode m).fcode = s.fcode := rfl
@[simp] theorem State.setMode_fcmd (m : Mode) : (s.setMode m).fcmd = s.fcmd := rfl
@[simp] theorem State.setMode_pending (m : Mode) : (s.setMode m).pending = s.pending := rfl
@[simp] theorem State.setMode_observed (m : Mode) : (s.setMode m).observed = s.observed := rfl

@[simp] theorem State.begin_S (rt dl : Byte) : (s.begin rt dl).S = [] := rfl
@[simp] theorem State.begin_offset (rt dl : Byte) : (s.begin rt dl).offset = 0 := rfl
@[simp] theorem State.begin_rate (rt dl : Byte) : (s.begin rt dl).rate = rt := rfl
@[simp] theorem State.begin_delim (rt dl : Byte) : (s.begin rt dl).delim = dl := rfl
@[simp] theorem State.begin_mode (rt dl : Byte) : (s.begin rt dl).mode = .absorbing := rfl
@[simp] theorem State.begin_din (rt dl : Byte) : (s.begin rt dl).din = s.din := rfl
@[simp] theorem State.begin_dout (rt dl : Byte) : (s.begin rt dl).dout = 0 := rfl
@[simp] theorem State.begin_fcode (rt dl : Byte) : (s.begin rt dl).fcode = s.fcode := rfl
@[simp] theorem State.begin_fcmd (rt dl : Byte) : (s.begin rt dl).fcmd = s.fcmd := rfl
@[simp] theorem State.begin_pending (rt dl : Byte) : (s.begin rt dl).pending = s.pending := rfl
@[simp] theorem State.begin_observed (rt dl : Byte) : (s.begin rt dl).observed = s.observed := rfl

@[simp] theorem State.observe_S (v : Word) : (s.observe v).S = s.S := rfl
@[simp] theorem State.observe_offset (v : Word) : (s.observe v).offset = s.offset := rfl
@[simp] theorem State.observe_rate (v : Word) : (s.observe v).rate = s.rate := rfl
@[simp] theorem State.observe_delim (v : Word) : (s.observe v).delim = s.delim := rfl
@[simp] theorem State.observe_mode (v : Word) : (s.observe v).mode = s.mode := rfl
@[simp] theorem State.observe_din (v : Word) : (s.observe v).din = s.din := rfl
@[simp] theorem State.observe_dout (v : Word) : (s.observe v).dout = s.dout := rfl
@[simp] theorem State.observe_fcode (v : Word) : (s.observe v).fcode = s.fcode := rfl
@[simp] theorem State.observe_fcmd (v : Word) : (s.observe v).fcmd = s.fcmd := rfl
@[simp] theorem State.observe_pending (v : Word) : (s.observe v).pending = s.pending := rfl
@[simp] theorem State.observe_observed (v : Word) : (s.observe v).observed = s.observed ++ [v] := rfl

@[simp] theorem State.setPending_S (l : List HostAction) : (s.setPending l).S = s.S := rfl
@[simp] theorem State.setPending_offset (l : List HostAction) : (s.setPending l).offset = s.offset := rfl
@[simp] theorem State.setPending_rate (l : List HostAction) : (s.setPending l).rate = s.rate := rfl
@[simp] theorem State.setPending_delim (l : List HostAction) : (s.setPending l).delim = s.delim := rfl
@[simp] theorem State.setPending_mode (l : List HostAction) : (s.setPending l).mode = s.mode := rfl
@[simp] theorem State.setPending_din (l : List HostAction) : (s.setPending l).din = s.din := rfl
@[simp] theorem State.setPending_dout (l : List HostAction) : (s.setPending l).dout = s.dout := rfl
@[simp] theorem State.setPending_fcode (l : List HostAction) : (s.setPending l).fcode = s.fcode := rfl
@[simp] theorem State.setPending_fcmd (l : List HostAction) : (s.setPending l).fcmd = s.fcmd := rfl
@[simp] theorem State.setPending_pending (l : List HostAction) : (s.setPending l).pending = l := rfl
@[simp] theorem State.setPending_observed (l : List HostAction) : (s.setPending l).observed = s.observed := rfl

@[simp] theorem enterFault_S (f : FaultCode) (c : Word) : (enterFault f c s).S = s.S := rfl
@[simp] theorem enterFault_offset (f : FaultCode) (c : Word) : (enterFault f c s).offset = s.offset := rfl
@[simp] theorem enterFault_rate (f : FaultCode) (c : Word) : (enterFault f c s).rate = s.rate := rfl
@[simp] theorem enterFault_delim (f : FaultCode) (c : Word) : (enterFault f c s).delim = s.delim := rfl
@[simp] theorem enterFault_mode (f : FaultCode) (c : Word) : (enterFault f c s).mode = .fault := rfl
@[simp] theorem enterFault_din (f : FaultCode) (c : Word) : (enterFault f c s).din = s.din := rfl
@[simp] theorem enterFault_dout (f : FaultCode) (c : Word) : (enterFault f c s).dout = s.dout := rfl
@[simp] theorem enterFault_fcode (f : FaultCode) (c : Word) : (enterFault f c s).fcode = f := rfl
@[simp] theorem enterFault_fcmd (f : FaultCode) (c : Word) : (enterFault f c s).fcmd = c := rfl
@[simp] theorem enterFault_pending (f : FaultCode) (c : Word) : (enterFault f c s).pending = s.pending := rfl
@[simp] theorem enterFault_observed (f : FaultCode) (c : Word) : (enterFault f c s).observed = s.observed := rfl

@[simp] theorem resetBlock_S : (resetBlock s).S = [] := rfl
@[simp] theorem resetBlock_offset : (resetBlock s).offset = 0 := rfl
@[simp] theorem resetBlock_rate : (resetBlock s).rate = 0 := rfl
@[simp] theorem resetBlock_delim : (resetBlock s).delim = 0 := rfl
@[simp] theorem resetBlock_mode : (resetBlock s).mode = .idle := rfl
@[simp] theorem resetBlock_din : (resetBlock s).din = 0 := rfl
@[simp] theorem resetBlock_dout : (resetBlock s).dout = 0 := rfl
@[simp] theorem resetBlock_fcode : (resetBlock s).fcode = .none := rfl
@[simp] theorem resetBlock_fcmd : (resetBlock s).fcmd = 0 := rfl
@[simp] theorem resetBlock_pending : (resetBlock s).pending = s.pending := rfl
@[simp] theorem resetBlock_observed : (resetBlock s).observed = s.observed := rfl

@[simp] theorem State.setPending_self : s.setPending s.pending = s := rfl

@[simp] theorem State.setPending_setPending (l m : List HostAction) :
    (s.setPending l).setPending m = s.setPending m := rfl

end Sys2Proof.Machine
end

