-- ==== Sys2Proof/Laws/Sponge.lean ====
section
/-! SUPPORT. Everything the sponge primitives can do, said once each. -/

namespace Sys2Proof.Machine

/-! ### Outcomes in sequence -/

@[simp] theorem andThen_next {α β : Type} (a : α) (f : α → Host.Outcome β Fault Refusal) :
    andThen (.next a) f = f a := rfl

@[simp] theorem andThen_fault {α β : Type} (r : Fault) (f : α → Host.Outcome β Fault Refusal) :
    andThen (.fault r) f = .fault r := rfl

@[simp] theorem andThen_refused {α β : Type} (r : Refusal) (f : α → Host.Outcome β Fault Refusal) :
    andThen (.refused r) f = .refused r := rfl

/-- A sequence that answers a next value went through a next value. -/
theorem andThen_eq_next {α β : Type} {o : Host.Outcome α Fault Refusal} {f : α → Host.Outcome β Fault Refusal}
    {b : β} : andThen o f = .next b ↔ ∃ a, o = .next a ∧ f a = .next b := by
  cases o <;> simp

theorem andThen_assoc {α β γ : Type} (o : Host.Outcome α Fault Refusal) (f : α → Host.Outcome β Fault Refusal)
    (g : β → Host.Outcome γ Fault Refusal) :
    andThen (andThen o f) g = andThen o fun a => andThen (f a) g := by
  cases o <;> rfl

/-! ### The cursor -/

@[simp] theorem advance_rate (s : State) : (advance s).rate = s.rate := by unfold advance; split <;> rfl
@[simp] theorem advance_delim (s : State) : (advance s).delim = s.delim := by unfold advance; split <;> rfl
@[simp] theorem advance_mode (s : State) : (advance s).mode = s.mode := by unfold advance; split <;> rfl
@[simp] theorem advance_din (s : State) : (advance s).din = s.din := by unfold advance; split <;> rfl
@[simp] theorem advance_dout (s : State) : (advance s).dout = s.dout := by unfold advance; split <;> rfl
@[simp] theorem advance_fcode (s : State) : (advance s).fcode = s.fcode := by unfold advance; split <;> rfl
@[simp] theorem advance_fcmd (s : State) : (advance s).fcmd = s.fcmd := by unfold advance; split <;> rfl
@[simp] theorem advance_pending (s : State) : (advance s).pending = s.pending := by unfold advance; split <;> rfl
@[simp] theorem advance_observed (s : State) : (advance s).observed = s.observed := by
  unfold advance; split <;> rfl

theorem advance_S (s : State) : (advance s).S = if s.offset + 1 = s.rate then permute s.S else s.S := by
  unfold advance; split <;> rfl

/-- In a window the cursor's move never wraps the 8 bits. -/
theorem offset_succ_toNat {s : State} (h : Window s) : (s.offset + 1).toNat = s.offset.toNat + 1 := by
  obtain ⟨_, h2, h3⟩ := h
  rw [BitVec.toNat_add]
  show (s.offset.toNat + 1) % 256 = _
  omega

/-- In a window the last byte is the one that fills it. -/
theorem offset_succ_eq_rate {s : State} (h : Window s) :
    s.offset + 1 = s.rate ↔ s.offset.toNat + 1 = s.rate.toNat := by
  rw [← offset_succ_toNat h, BitVec.toNat_inj]

/-- The cursor moves by one modulo the rate (R130, R131). -/
theorem advance_offset {s : State} (h : Window s) :
    (advance s).offset.toNat = (s.offset.toNat + 1) % s.rate.toNat := by
  unfold advance
  split
  · next he =>
    rw [(offset_succ_eq_rate h).mp he, Nat.mod_self]
    rfl
  · next he =>
    show (s.offset + 1).toNat = _
    have hne := mt (offset_succ_eq_rate h).mpr he
    rw [offset_succ_toNat h, Nat.mod_eq_of_lt (by omega)]

theorem advance_window {s : State} (h : Window s) : Window (advance s) := by
  refine ⟨by simpa using h.1, by simpa using h.2.1, ?_⟩
  rw [advance_offset h, advance_rate]
  exact Nat.mod_lt _ (by omega)

theorem advance_wf {s : State} (h : s.S.wf) : (advance s).S.wf := by
  rw [advance_S]
  split
  · exact wf_permute _
  · exact h

/-! ### Absorbing -/

/-- Absorbing one byte where the cursor's byte exists (R130). -/
theorem absorbByte_eq {s : State} (h : s.offset.toNat < 200) (b : Byte) :
    absorbByte b s =
      .next (advance { s with S := s.S.write s.offset.toNat (s.S.read s.offset.toNat ^^^ b) }) := by
  simp [absorbByte, readByte_eq h, writeByte_eq h]

/-- Absorbing one byte where the cursor's byte does not exist stops. -/
theorem absorbByte_stops {s : State} (h : 200 ≤ s.offset.toNat) (b : Byte) :
    absorbByte b s = .fault .noSuchByte := by
  simp [absorbByte, readByte_stops h]

/-- Every next state of AbsorbByte comes from a byte that exists. -/
theorem absorbByte_next {s t : State} {b : Byte} (h : absorbByte b s = .next t) :
    s.offset.toNat < 200 ∧
      t = advance { s with S := s.S.write s.offset.toNat (s.S.read s.offset.toNat ^^^ b) } := by
  by_cases ho : s.offset.toNat < 200
  · rw [absorbByte_eq ho] at h
    exact ⟨ho, (Host.Outcome.next.inj h).symm⟩
  · rw [absorbByte_stops (by omega)] at h
    exact absurd h (by simp)

@[simp] theorem absorbBytes_nil (s : State) : absorbBytes [] s = .next s := rfl

theorem absorbBytes_cons (b : Byte) (bs : List Byte) (s : State) :
    absorbBytes (b :: bs) s = andThen (absorbByte b s) (absorbBytes bs) := rfl

theorem absorbBytes_append (as bs : List Byte) (s : State) :
    absorbBytes (as ++ bs) s = andThen (absorbBytes as s) (absorbBytes bs) := by
  induction as generalizing s with
  | nil => rfl
  | cons a as ih =>
    rw [List.cons_append, absorbBytes_cons, absorbBytes_cons, andThen_assoc]
    congr 1
    funext t
    exact ih t

/-- Absorbing changes the buffer and the cursor only. -/
theorem absorbBytes_frame {bs : List Byte} {s t : State} (h : absorbBytes bs s = .next t) :
    t = { s with S := t.S, offset := t.offset } := by
  induction bs generalizing s with
  | nil => cases h; rfl
  | cons b bs ih =>
    obtain ⟨u, hu, ht⟩ := andThen_eq_next.mp h
    obtain ⟨-, rfl⟩ := absorbByte_next hu
    rw [ih ht]
    simp

/-- In a window absorbing always completes, keeps the window and the canonical form, and moves the cursor by the
number of bytes modulo the rate (R130, R134). -/
theorem absorbBytes_completes {s : State} (hw : Window s) (hm : s.S.wf) (bs : List Byte) :
    ∃ t, absorbBytes bs s = .next t ∧ Window t ∧ t.S.wf ∧
      t.offset.toNat = (s.offset.toNat + bs.length) % s.rate.toNat := by
  induction bs generalizing s with
  | nil =>
    obtain ⟨h1, h2, h3⟩ := hw
    exact ⟨s, rfl, ⟨h1, h2, h3⟩, hm, by rw [List.length_nil, Nat.add_zero, Nat.mod_eq_of_lt h3]⟩
  | cons b bs ih =>
    have ho : s.offset.toNat < 200 := by obtain ⟨_, _, _⟩ := hw; omega
    let u : State := { s with S := s.S.write s.offset.toNat (s.S.read s.offset.toNat ^^^ b) }
    have hu : Window u := hw
    obtain ⟨t, ht, hwt, hmt, hot⟩ := ih (advance_window hu) (advance_wf (Memory.wf_write hm ho _))
    refine ⟨t, ?_, hwt, hmt, ?_⟩
    · rw [absorbBytes_cons, absorbByte_eq ho]
      exact ht
    · rw [hot, advance_offset hu, advance_rate, Nat.mod_add_mod]
      show (s.offset.toNat + 1 + bs.length) % s.rate.toNat = _
      rw [List.length_cons]
      congr 1
      omega

/-! ### Squeezing -/

/-- Squeezing one byte where the cursor's byte exists (R131). -/
theorem squeezeByte_eq {s : State} (h : s.offset.toNat < 200) :
    squeezeByte s = .next (s.S.read s.offset.toNat, advance s) := by
  simp [squeezeByte, readByte_eq h]

theorem squeezeByte_stops {s : State} (h : 200 ≤ s.offset.toNat) : squeezeByte s = .fault .noSuchByte := by
  simp [squeezeByte, readByte_stops h]

theorem squeezeByte_next {s : State} {r : Byte × State} (h : squeezeByte s = .next r) :
    s.offset.toNat < 200 ∧ r = (s.S.read s.offset.toNat, advance s) := by
  by_cases ho : s.offset.toNat < 200
  · rw [squeezeByte_eq ho] at h
    exact ⟨ho, (Host.Outcome.next.inj h).symm⟩
  · rw [squeezeByte_stops (by omega)] at h
    exact absurd h (by simp)

@[simp] theorem squeezeBytes_zero (s : State) : squeezeBytes 0 s = .next ([], s) := rfl

theorem squeezeBytes_succ (n : Nat) (s : State) :
    squeezeBytes (n + 1) s =
      andThen (squeezeByte s) fun r => andThen (squeezeBytes n r.2) fun q => .next (r.1 :: q.1, q.2) := rfl

/-- Squeezing changes the buffer and the cursor only, and yields as many bytes as asked. -/
theorem squeezeBytes_frame {n : Nat} {s : State} {r : List Byte × State} (h : squeezeBytes n s = .next r) :
    r.1.length = n ∧ r.2 = { s with S := r.2.S, offset := r.2.offset } := by
  induction n generalizing s r with
  | zero => cases h; exact ⟨rfl, rfl⟩
  | succ n ih =>
    obtain ⟨u, hu, h⟩ := andThen_eq_next.mp h
    obtain ⟨q, hq, h⟩ := andThen_eq_next.mp h
    obtain ⟨-, rfl⟩ := squeezeByte_next hu
    obtain rfl := (Host.Outcome.next.inj h).symm
    obtain ⟨hl, hf⟩ := ih hq
    refine ⟨by simp [hl], ?_⟩
    show q.2 = _
    rw [hf]
    simp

/-- In a window squeezing always completes, keeps the window and the canonical form, and moves the cursor by the
number of bytes modulo the rate (R131, R136). -/
theorem squeezeBytes_completes {s : State} (hw : Window s) (hm : s.S.wf) (n : Nat) :
    ∃ bs t, squeezeBytes n s = .next (bs, t) ∧ Window t ∧ t.S.wf ∧
      t.offset.toNat = (s.offset.toNat + n) % s.rate.toNat := by
  induction n generalizing s with
  | zero =>
    obtain ⟨h1, h2, h3⟩ := hw
    exact ⟨[], s, rfl, ⟨h1, h2, h3⟩, hm, by rw [Nat.add_zero, Nat.mod_eq_of_lt h3]⟩
  | succ n ih =>
    have ho : s.offset.toNat < 200 := by obtain ⟨_, _, _⟩ := hw; omega
    obtain ⟨bs, t, ht, hwt, hmt, hot⟩ := ih (advance_window hw) (advance_wf hm)
    refine ⟨s.S.read s.offset.toNat :: bs, t, ?_, hwt, hmt, ?_⟩
    · rw [squeezeBytes_succ, squeezeByte_eq ho, andThen_next, ht]
      rfl
    · rw [hot, advance_offset hw, advance_rate, Nat.mod_add_mod]
      congr 1
      omega

/-- Squeezing `m + n` bytes is squeezing `m` and then `n` (R141). -/
theorem squeezeBytes_add (m n : Nat) (s : State) :
    squeezeBytes (m + n) s =
      andThen (squeezeBytes m s) fun r =>
        andThen (squeezeBytes n r.2) fun q => .next (r.1 ++ q.1, q.2) := by
  induction m generalizing s with
  | zero =>
    rw [Nat.zero_add, squeezeBytes_zero, andThen_next]
    cases squeezeBytes n s <;> rfl
  | succ m ih =>
    rw [show m + 1 + n = (m + n) + 1 by omega, squeezeBytes_succ, squeezeBytes_succ, andThen_assoc]
    congr 1
    funext r
    rw [ih, andThen_assoc, andThen_assoc]
    congr 1
    funext q
    rw [andThen_assoc]
    rfl

/-! ### Padding -/

/-- Pad-and-transition in a window (R132). -/
theorem padAndTransition_eq {s : State} (h : Window s) :
    padAndTransition s = .next { s with
      S := permute (padBuffer s.offset.toNat s.rate.toNat s.delim s.S)
      offset := 0
      mode := .squeezing } := by
  obtain ⟨h1, h2, h3⟩ := h
  exact if_pos ⟨by omega, h1, by omega⟩

/-- Every next state of pad-and-transition. -/
theorem padAndTransition_next {s t : State} (h : padAndTransition s = .next t) :
    t = { s with
      S := permute (padBuffer s.offset.toNat s.rate.toNat s.delim s.S)
      offset := 0
      mode := .squeezing } := by
  unfold padAndTransition at h
  split at h
  · exact (Host.Outcome.next.inj h).symm
  · exact absurd h (by simp)

/-- The bytes of the padded buffer: the pad block is XORed into the rate window alone (R132, R142). -/
theorem read_padBuffer (offset rate : Nat) (delim : Byte) (S : Memory) {i : Nat} (hi : i < 200) :
    (padBuffer offset rate delim S).read i =
      if i < rate then S.read i ^^^ padByte offset rate delim i else S.read i := by
  simp [padBuffer, hi]

/-- Squeezing into DOUT in a window: what SQUEEZE and FINAL do once permitted (R136). -/
theorem squeezeToDout_completes {s : State} (hw : Window s) (hm : s.S.wf) (n : Nat) :
    ∃ bs t, squeezeBytes n s = .next (bs, t) ∧ squeezeToDout n s = .next (t.setDout (wordOfBytes bs)) ∧
      Window t ∧ t.S.wf ∧ t.offset.toNat = (s.offset.toNat + n) % s.rate.toNat := by
  obtain ⟨bs, t, ht, h⟩ := squeezeBytes_completes hw hm n
  exact ⟨bs, t, ht, by rw [squeezeToDout, ht]; rfl, h⟩

/-- Every next state of a squeeze into DOUT: it changes the buffer, the cursor and DOUT only. -/
theorem squeezeToDout_next {n : Nat} {s t : State} (h : squeezeToDout n s = .next t) :
    ∃ bs u, squeezeBytes n s = .next (bs, u) ∧ bs.length = n ∧ t = u.setDout (wordOfBytes bs) ∧
      t = { s with S := t.S, offset := t.offset, dout := t.dout } := by
  obtain ⟨⟨bs, u⟩, hu, h⟩ := andThen_eq_next.mp h
  obtain rfl := (Host.Outcome.next.inj h).symm
  obtain ⟨hl, hf⟩ := squeezeBytes_frame hu
  refine ⟨bs, u, hu, hl, rfl, ?_⟩
  show u.setDout _ = _
  simp only at hf
  rw [hf]
  rfl

end Sys2Proof.Machine
end

