-- ==== Sys2Proof/Laws/Commands.lean ====
section
/-! SUPPORT. The opening checks of every command, and what a host access can do. -/

namespace Sys2Proof.Machine

/-- In Fault every command is ignored (R176). -/
theorem command_ignored {c : Word} {checks : List (Bool × FaultCode)} {s : State}
    {effect : State → Host.Outcome State Fault Refusal} (h : s.mode = .fault) :
    command c checks s effect = .next s := if_pos h

/-- The first check that fails decides the fault (R173, R174). -/
theorem command_faults {c : Word} {checks : List (Bool × FaultCode)} {s : State}
    {effect : State → Host.Outcome State Fault Refusal} {f : FaultCode} (h : s.mode ≠ .fault)
    (hf : firstFailing checks = some f) : command c checks s effect = .next (enterFault f c s) := by
  rw [command, if_neg h, hf]

/-- With no check failing the command has its effect. -/
theorem command_passes {c : Word} {checks : List (Bool × FaultCode)} {s : State}
    {effect : State → Host.Outcome State Fault Refusal} (h : s.mode ≠ .fault)
    (hf : firstFailing checks = none) : command c checks s effect = effect s := by
  rw [command, if_neg h, hf]

/-- Everything a command can do: be ignored, enter Fault, or have its effect. -/
theorem command_cases (c : Word) (checks : List (Bool × FaultCode)) (s : State)
    (effect : State → Host.Outcome State Fault Refusal) :
    (s.mode = .fault ∧ command c checks s effect = .next s) ∨
    (s.mode ≠ .fault ∧ ∃ f, firstFailing checks = some f ∧
      command c checks s effect = .next (enterFault f c s)) ∨
    (s.mode ≠ .fault ∧ firstFailing checks = none ∧ command c checks s effect = effect s) := by
  by_cases h : s.mode = .fault
  · exact .inl ⟨h, command_ignored h⟩
  · cases hf : firstFailing checks with
    | none => exact .inr (.inr ⟨h, rfl, command_passes h hf⟩)
    | some f => exact .inr (.inl ⟨h, f, rfl, command_faults h hf⟩)

@[simp] theorem firstFailing_nil : firstFailing [] = none := rfl

theorem firstFailing_cons (b : Bool) (f : FaultCode) (rest : List (Bool × FaultCode)) :
    firstFailing ((b, f) :: rest) = if b then some f else firstFailing rest := rfl

/-- An illegal word outside Fault enters Fault with ILLEGAL_COMMAND (R77, R174). -/
theorem illegalCommand_faults {c : Word} {s : State} (h : s.mode ≠ .fault) :
    illegalCommand c s = .next (enterFault .illegalCommand c s) := command_faults h rfl

theorem illegalCommand_ignored {c : Word} {s : State} (h : s.mode = .fault) : illegalCommand c s = .next s :=
  command_ignored h

/-- What a write of a word to CMD runs (R56, R77). -/
theorem executeWord_ok {c : Word} {i : Instr} (h : decode c = .ok i) (s : State) : executeWord c s = exec i s := by
  rw [executeWord, h]

theorem executeWord_error {c : Word} {e : IllegalReason} (h : decode c = .error e) (s : State) :
    executeWord c s = illegalCommand c s := by
  rw [executeWord, h]

/-- An access inside the window that is 64 bits wide and aligned has its move. -/
theorem checkedAccess_ok {offset : Nat} (h : offset < 0x40) (h8 : offset % 8 = 0)
    (a : Host.Outcome State Fault Refusal) : checkedAccess offset 64 a = a := by
  rw [checkedAccess, if_neg (by omega), if_pos ⟨rfl, h8⟩]

/-- Every next state of an access went through a move of that access. -/
theorem checkedAccess_next {offset width : Nat} {a : Host.Outcome State Fault Refusal} {t : State}
    (h : checkedAccess offset width a = .next t) : offset < 0x40 ∧ width = 64 ∧ offset % 8 = 0 ∧ a = .next t := by
  unfold checkedAccess at h
  split at h
  · exact absurd h (by simp)
  · split at h
    · next h1 h2 => exact ⟨by omega, h2.1, h2.2, h⟩
    · exact absurd h (by simp)

/-- Everything a host action that answers a next state can be. -/
theorem perform_cases {a : HostAction} {s t : State} (h : perform a s = .next t) :
    (∃ offset, a = .read offset 64 ∧ t = s.observe (readRegister offset s)) ∨
    (∃ c, a = .write 0x00 64 c ∧ executeWord c s = .next t) ∨
    (∃ v, a = .write 0x08 64 v ∧ t = s.setDin v) ∨
    (∃ offset v, a = .write offset 64 v ∧ 0x10 ≤ offset ∧ t = s) ∨
    (a = .reset ∧ t = resetBlock s) := by
  cases a with
  | read offset width =>
    obtain ⟨-, rfl, -, h⟩ := checkedAccess_next h
    exact .inl ⟨offset, rfl, (Host.Outcome.next.inj h).symm⟩
  | write offset width v =>
    obtain ⟨-, rfl, h8, h⟩ := checkedAccess_next h
    unfold writeRegister at h
    split at h
    · exact .inr (.inl ⟨v, rfl, h⟩)
    · exact .inr (.inr (.inl ⟨v, rfl, (Host.Outcome.next.inj h).symm⟩))
    · next h0 h1 =>
      refine .inr (.inr (.inr (.inl ⟨offset, v, rfl, ?_, (Host.Outcome.next.inj h).symm⟩)))
      have h0 : offset ≠ 0 := h0
      have h1 : offset ≠ 8 := h1
      omega
  | reset => exact .inr (.inr (.inr (.inr ⟨rfl, (Host.Outcome.next.inj h).symm⟩)))

theorem performAll_cons (a : HostAction) (as : List HostAction) (s : State) :
    performAll (a :: as) s = andThen (perform a s) (performAll as) := rfl

@[simp] theorem performAll_nil (s : State) : performAll [] s = .next s := rfl

theorem performAll_append (as bs : List HostAction) (s : State) :
    performAll (as ++ bs) s = andThen (performAll as s) (performAll bs) := by
  induction as generalizing s with
  | nil => rfl
  | cons a as ih =>
    rw [List.cons_append, performAll_cons, performAll_cons, andThen_assoc]
    congr 1
    funext t
    exact ih t

/-! ### Every command in one form -/

/-- The checks of a command, in its rule's order (R133 to R137). -/
def checksOf (i : Instr) (s : State) : List (Bool × FaultCode) :=
  match i with
  | .init rt _ => [(!legalRate rt, .badRate)]
  | .absorb n => [(!legalCount n, .badCount), (s.mode == .idle, .notConfigured), (s.mode == .consumed, .consumed),
      (s.mode != .absorbing, .order)]
  | .pad => [(s.mode == .idle, .notConfigured), (s.mode == .consumed, .consumed), (s.mode != .absorbing, .order)]
  | .squeeze n => [(!legalCount n, .badCount), (s.mode == .idle, .notConfigured), (s.mode == .consumed, .consumed),
      (s.mode != .squeezing, .order)]
  | .final n => [(!legalCount n, .badCount), (s.mode == .idle, .notConfigured), (s.mode == .consumed, .consumed)]

/-- The effect of a command once its checks have passed (R133 to R137). -/
def effectOf (i : Instr) (s : State) : Host.Outcome State Fault Refusal :=
  match i with
  | .init rt dl => .next (s.begin rt dl)
  | .absorb n => absorbBytes (bytesOf s.din n.toNat) s
  | .pad => padAndTransition s
  | .squeeze n => squeezeToDout n.toNat s
  | .final n =>
    andThen (if s.mode = .absorbing then padAndTransition s else .next s) fun t =>
      andThen (squeezeToDout n.toNat t) fun u => .next (u.setMode .consumed)

theorem exec_eq (i : Instr) (s : State) : exec i s = command (encode i) (checksOf i s) s (effectOf i) := by
  cases i <;> rfl

/-- The operands and the mode in which a command has its effect (R138). -/
def Permitted (i : Instr) (s : State) : Prop :=
  match i with
  | .init rt _ => 1 ≤ rt.toNat ∧ rt.toNat ≤ 199
  | .absorb n => n.toNat ≤ 8 ∧ s.mode = .absorbing
  | .pad => s.mode = .absorbing
  | .squeeze n => n.toNat ≤ 8 ∧ s.mode = .squeezing
  | .final n => n.toNat ≤ 8 ∧ (s.mode = .absorbing ∨ s.mode = .squeezing)

/-- Outside Fault no check fails exactly when the command is permitted (R138, R173). -/
theorem firstFailing_checksOf {i : Instr} {s : State} (h : s.mode ≠ .fault) :
    firstFailing (checksOf i s) = none ↔ Permitted i s := by
  cases i with
  | init rt dl =>
    by_cases hr : 1 ≤ rt.toNat ∧ rt.toNat ≤ 199 <;> simp [checksOf, Permitted, firstFailing_cons, legalRate, hr]
  | absorb n =>
    by_cases hn : n.toNat ≤ 8 <;> cases hm : s.mode <;>
      simp_all [checksOf, Permitted, firstFailing_cons, legalCount]
  | pad => cases hm : s.mode <;> simp_all [checksOf, Permitted, firstFailing_cons]
  | squeeze n =>
    by_cases hn : n.toNat ≤ 8 <;> cases hm : s.mode <;>
      simp_all [checksOf, Permitted, firstFailing_cons, legalCount]
  | final n =>
    by_cases hn : n.toNat ≤ 8 <;> cases hm : s.mode <;>
      simp_all [checksOf, Permitted, firstFailing_cons, legalCount]

/-- A check that fails always names a fault. -/
theorem firstFailing_checksOf_ne {i : Instr} {s : State} {f : FaultCode}
    (h : firstFailing (checksOf i s) = some f) : f ≠ .none := by
  rintro rfl
  cases i <;> simp only [checksOf, firstFailing_cons, firstFailing_nil] at h <;> split_ifs at h <;> simp_all

/-- A permitted command has its effect. -/
theorem exec_permitted {i : Instr} {s : State} (hm : s.mode ≠ .fault) (hp : Permitted i s) :
    exec i s = effectOf i s := by
  rw [exec_eq, command_passes hm ((firstFailing_checksOf hm).mpr hp)]

/-- In Fault every command is ignored (R176). -/
theorem exec_ignored {s : State} (h : s.mode = .fault) (i : Instr) : exec i s = .next s := by
  rw [exec_eq, command_ignored h]

/-- A failing check decides the fault (R173). -/
theorem exec_faults {i : Instr} {s : State} {f : FaultCode} (hm : s.mode ≠ .fault)
    (hf : firstFailing (checksOf i s) = some f) : exec i s = .next (enterFault f (encode i) s) := by
  rw [exec_eq, command_faults hm hf]

/-- The mode a permitted command leaves (R138). -/
def modeAfter : Instr → Mode
  | .init _ _ => .absorbing
  | .absorb _ => .absorbing
  | .pad => .squeezing
  | .squeeze _ => .squeezing
  | .final _ => .consumed

/-- A permitted command that answers a next state leaves the mode of its kind, and keeps what no effect writes. -/
theorem effectOf_frame {i : Instr} {s t : State} (hp : Permitted i s) (h : effectOf i s = .next t) :
    t.mode = modeAfter i ∧ t.din = s.din ∧ t.fcode = s.fcode ∧ t.fcmd = s.fcmd ∧ t.pending = s.pending ∧
      t.observed = s.observed := by
  cases i with
  | init rt dl =>
    obtain rfl := Host.Outcome.next.inj h
    exact ⟨rfl, rfl, rfl, rfl, rfl, rfl⟩
  | absorb n =>
    rw [absorbBytes_frame h]
    exact ⟨hp.2, rfl, rfl, rfl, rfl, rfl⟩
  | pad =>
    rw [padAndTransition_next h]
    exact ⟨rfl, rfl, rfl, rfl, rfl, rfl⟩
  | squeeze n =>
    obtain ⟨-, -, -, -, -, ht⟩ := squeezeToDout_next h
    rw [ht]
    exact ⟨hp.2, rfl, rfl, rfl, rfl, rfl⟩
  | final n =>
    obtain ⟨p, hpad, h⟩ := andThen_eq_next.mp h
    obtain ⟨u, hu, h⟩ := andThen_eq_next.mp h
    obtain rfl := Host.Outcome.next.inj h
    obtain ⟨-, -, -, -, -, hu⟩ := squeezeToDout_next hu
    rw [hu]
    split at hpad
    · rw [padAndTransition_next hpad]
      exact ⟨rfl, rfl, rfl, rfl, rfl, rfl⟩
    · obtain rfl := Host.Outcome.next.inj hpad
      exact ⟨rfl, rfl, rfl, rfl, rfl, rfl⟩

/-- Everything a command that answers a next state can have done: nothing, in Fault; entered Fault; or its effect. -/
theorem exec_cases {i : Instr} {s t : State} (h : exec i s = .next t) :
    (s.mode = .fault ∧ t = s) ∨
    (s.mode ≠ .fault ∧ ¬ Permitted i s ∧
      ∃ f, f ≠ .none ∧ firstFailing (checksOf i s) = some f ∧ t = enterFault f (encode i) s) ∨
    (s.mode ≠ .fault ∧ Permitted i s ∧ effectOf i s = .next t ∧ t.mode ≠ .fault) := by
  by_cases hm : s.mode = .fault
  · rw [exec_ignored hm] at h
    exact .inl ⟨hm, (Host.Outcome.next.inj h).symm⟩
  by_cases hp : Permitted i s
  · rw [exec_permitted hm hp] at h
    refine .inr (.inr ⟨hm, hp, h, ?_⟩)
    rw [(effectOf_frame hp h).1]
    cases i <;> simp [modeAfter]
  · cases hf : firstFailing (checksOf i s) with
    | none => exact absurd ((firstFailing_checksOf hm).mp hf) hp
    | some f =>
      rw [exec_faults hm hf] at h
      exact .inr (.inl ⟨hm, hp, f, firstFailing_checksOf_ne hf, rfl, (Host.Outcome.next.inj h).symm⟩)

/-- Everything a CMD write that answers a next state can have done. -/
theorem executeWord_cases {c : Word} {s t : State} (h : executeWord c s = .next t) :
    (∃ i, decode c = .ok i ∧ exec i s = .next t) ∨
    (∃ e, decode c = .error e ∧
      ((s.mode = .fault ∧ t = s) ∨ (s.mode ≠ .fault ∧ t = enterFault .illegalCommand c s))) := by
  unfold executeWord at h
  split at h
  · next i hi => exact .inl ⟨i, hi, h⟩
  · next e he =>
    refine .inr ⟨e, he, ?_⟩
    by_cases hm : s.mode = .fault
    · rw [illegalCommand_ignored hm] at h
      exact .inl ⟨hm, (Host.Outcome.next.inj h).symm⟩
    · rw [illegalCommand_faults hm] at h
      exact .inr ⟨hm, (Host.Outcome.next.inj h).symm⟩

end Sys2Proof.Machine
end

