-- ==== Sys2Proof/Laws/Cursor.lean ====
section
/-! SUPPORT. Closed forms: the state after any number of cursor moves, the bytes a squeeze shows, and what absorbing
leaves in the window. -/

namespace Sys2Proof.Machine

/-- One step of a quotient and a remainder. -/
theorem div_mod_succ (m r : Nat) (hr : 1 ≤ r) :
    (m % r + 1 = r → (m + 1) / r = m / r + 1 ∧ (m + 1) % r = 0) ∧
    (m % r + 1 ≠ r → (m + 1) / r = m / r ∧ (m + 1) % r = m % r + 1) := by
  have hlt := Nat.mod_lt m (show r > 0 by omega)
  have e := Nat.div_add_mod m r
  constructor
  · intro h
    have : m + 1 = r * (m / r + 1) := by rw [Nat.mul_add, Nat.mul_one]; omega
    rw [this, Nat.mul_div_cancel_left _ (by omega), Nat.mul_mod_right]
    exact ⟨rfl, rfl⟩
  · intro h
    have : m + 1 = (m % r + 1) + r * (m / r) := by omega
    rw [this, Nat.add_mul_div_left _ _ (by omega), Nat.add_mul_mod_self_left, Nat.div_eq_of_lt (by omega),
      Nat.mod_eq_of_lt (by omega), Nat.zero_add]
    exact ⟨rfl, rfl⟩

/-- The state after `k` cursor moves: one permutation for every full window (R130, R131). -/
def cursorAfter (k : Nat) (s : State) : State := { s with
  S := permute^[(s.offset.toNat + k) / s.rate.toNat] s.S
  offset := BitVec.ofNat 8 ((s.offset.toNat + k) % s.rate.toNat) }

theorem cursorAfter_zero {s : State} (hw : Window s) : cursorAfter 0 s = s := by
  unfold cursorAfter
  rw [Nat.add_zero, Nat.div_eq_of_lt hw.2.2, Nat.mod_eq_of_lt hw.2.2, BitVec.ofNat_toNat, BitVec.setWidth_eq]
  rfl

theorem cursorAfter_offset {s : State} (hw : Window s) (k : Nat) :
    (cursorAfter k s).offset.toNat = (s.offset.toNat + k) % s.rate.toNat := by
  have h := Nat.mod_lt (s.offset.toNat + k) (show s.rate.toNat > 0 from hw.1)
  have := hw.2.1
  show (BitVec.ofNat 8 _).toNat = _
  rw [BitVec.toNat_ofNat, Nat.mod_eq_of_lt (by omega)]

theorem cursorAfter_window {s : State} (hw : Window s) (k : Nat) : Window (cursorAfter k s) := by
  refine ⟨hw.1, hw.2.1, ?_⟩
  rw [cursorAfter_offset hw]
  exact Nat.mod_lt _ hw.1

theorem cursorAfter_fills {s : State} (hw : Window s) (k : Nat) :
    (cursorAfter k s).offset + 1 = (cursorAfter k s).rate ↔ (s.offset.toNat + k) % s.rate.toNat + 1 = s.rate.toNat := by
  rw [offset_succ_eq_rate (cursorAfter_window hw k), cursorAfter_offset hw]
  rfl

/-- One move more. -/
theorem advance_cursorAfter {s : State} (hw : Window s) (k : Nat) :
    advance (cursorAfter k s) = cursorAfter (k + 1) s := by
  have ha := div_mod_succ (s.offset.toNat + k) s.rate.toNat hw.1
  rw [Nat.add_assoc] at ha
  by_cases h : (s.offset.toNat + k) % s.rate.toNat + 1 = s.rate.toNat
  · obtain ⟨e1, e2⟩ := ha.1 h
    rw [advance, if_pos ((cursorAfter_fills hw k).mpr h)]
    show ({ s with S := permute (permute^[_] s.S), offset := 0 } : State) = _
    unfold cursorAfter
    rw [e1, e2, ← Function.iterate_succ_apply' permute]
    rfl
  · obtain ⟨e1, e2⟩ := ha.2 h
    rw [advance, if_neg (mt (cursorAfter_fills hw k).mp h)]
    unfold cursorAfter
    rw [e1, e2]
    congr 1
    show BitVec.ofNat 8 _ + 1 = _
    rw [BitVec.ofNat_add]
    rfl

/-- The byte that `k` moves of the cursor show (R131). -/
def byteAfter (s : State) (k : Nat) : Byte := (cursorAfter k s).S.read (cursorAfter k s).offset.toNat

theorem squeezeBytes_cursorAfter {s : State} (hw : Window s) (n k : Nat) :
    squeezeBytes n (cursorAfter k s) =
      .next ((List.range n).map fun j => byteAfter s (k + j), cursorAfter (k + n) s) := by
  induction n generalizing k with
  | zero => rfl
  | succ n ih =>
    have hc := cursorAfter_window hw k
    rw [squeezeBytes_succ, squeezeByte_eq (by have := hc.2; omega), andThen_next, advance_cursorAfter hw, ih,
      andThen_next, List.range_succ_eq_map]
    congr 2
    · rw [List.map_cons, List.map_map, Nat.add_zero]
      congr 1
      apply List.map_congr_left
      intro j _
      simp only [Function.comp]
      rw [show k + 1 + j = k + j.succ by omega]
    · rw [show k + 1 + n = k + (n + 1) by omega]

/-- Squeezing `n` bytes in a window, in closed form (R131). -/
theorem squeezeBytes_eq {s : State} (hw : Window s) (n : Nat) :
    squeezeBytes n s = .next ((List.range n).map (byteAfter s), cursorAfter n s) := by
  have h := squeezeBytes_cursorAfter hw n 0
  rw [cursorAfter_zero hw] at h
  simpa only [Nat.zero_add] using h

/-- The permutations of `n` cursor moves, in closed form (R144). -/
theorem boundaryPermutes_cursorAfter {s : State} (hw : Window s) (n k : Nat) :
    boundaryPermutes n (cursorAfter k s) + (s.offset.toNat + k) / s.rate.toNat =
      (s.offset.toNat + k + n) / s.rate.toNat := by
  induction n generalizing k with
  | zero => simp [boundaryPermutes]
  | succ n ih =>
    have h := ih (k + 1)
    have ha := div_mod_succ (s.offset.toNat + k) s.rate.toNat hw.1
    rw [Nat.add_assoc] at ha
    rw [boundaryPermutes, advance_cursorAfter hw,
      show s.offset.toNat + k + (n + 1) = s.offset.toNat + (k + 1) + n by omega, ← h]
    by_cases h : (s.offset.toNat + k) % s.rate.toNat + 1 = s.rate.toNat
    · rw [if_pos ((cursorAfter_fills hw k).mpr h), (ha.1 h).1]
      omega
    · rw [if_neg (mt (cursorAfter_fills hw k).mp h), (ha.2 h).1]
      omega

/-- Where the cursor goes, as two cases. -/
theorem advance_cases {s : State} (hw : Window s) :
    (s.offset.toNat + 1 = s.rate.toNat → advance s = { s with S := permute s.S, offset := 0 }) ∧
    (s.offset.toNat + 1 ≠ s.rate.toNat →
      advance s = { s with offset := s.offset + 1 } ∧ (s.offset + 1).toNat = s.offset.toNat + 1) :=
  ⟨fun h => if_pos ((offset_succ_eq_rate hw).mpr h),
    fun h => ⟨if_neg (mt (offset_succ_eq_rate hw).mp h), offset_succ_toNat hw⟩⟩

/-- Absorbing that does not fill the window: the bytes, in order, onto the bytes from the cursor on (R130). -/
theorem absorbBytes_below {s : State} (hw : Window s) (hm : s.S.wf) (bs : List Byte)
    (h : s.offset.toNat + bs.length < s.rate.toNat) :
    ∃ u : Memory, u.wf ∧
      absorbBytes bs s = .next { s with S := u, offset := BitVec.ofNat 8 (s.offset.toNat + bs.length) } ∧
      ∀ i, u.read i =
        if s.offset.toNat ≤ i ∧ i < s.offset.toNat + bs.length then s.S.read i ^^^ bs.getD (i - s.offset.toNat) 0
        else s.S.read i := by
  induction bs generalizing s with
  | nil => exact ⟨s.S, hm, by simp, fun i => by rw [if_neg (by simp)]⟩
  | cons b bs ih =>
    simp only [List.length_cons] at h
    have ho : s.offset.toNat < 200 := by have := hw.2; omega
    let v : State := { s with S := s.S.write s.offset.toNat (s.S.read s.offset.toNat ^^^ b) }
    have hwv : Window v := hw
    have hmv : v.S.wf := Memory.wf_write hm ho _
    obtain ⟨e1, e2⟩ := (advance_cases hwv).2 (show s.offset.toNat + 1 ≠ s.rate.toNat by omega)
    have e2 : (s.offset + 1).toNat = s.offset.toNat + 1 := e2
    have hw1 := advance_window hwv
    have hm1 := advance_wf hmv
    rw [e1] at hw1 hm1
    obtain ⟨u, hu, hr, hread⟩ := ih hw1 hm1 (show (s.offset + 1).toNat + bs.length < s.rate.toNat by omega)
    refine ⟨u, hu, ?_, fun i => ?_⟩
    · rw [absorbBytes_cons, absorbByte_eq ho, andThen_next]
      show absorbBytes bs (advance v) = _
      rw [e1, hr]
      show Host.Outcome.next ({ s with
        S := u, offset := BitVec.ofNat 8 ((s.offset + 1).toNat + bs.length) } : State) = _
      rw [e2, List.length_cons]
      congr 3
      omega
    · rw [hread i]
      show (if (s.offset + 1).toNat ≤ i ∧ i < (s.offset + 1).toNat + bs.length then
        v.S.read i ^^^ bs.getD (i - (s.offset + 1).toNat) 0 else v.S.read i) = _
      rw [show v.S.read i = _ from Memory.read_write hm _ _ i, e2, List.length_cons]
      by_cases hi : i = s.offset.toNat
      · subst hi
        rw [if_neg (by omega), if_pos rfl, if_pos (by omega), Nat.sub_self]
        rfl
      · rw [if_neg hi]
        by_cases h' : s.offset.toNat + 1 ≤ i ∧ i < s.offset.toNat + 1 + bs.length
        · rw [if_pos h', if_pos (by omega), show i - s.offset.toNat = (i - (s.offset.toNat + 1)) + 1 by omega]
          rfl
        · rw [if_neg h', if_neg (by omega)]

/-- Absorbing exactly to the end of the window: then the whole buffer is permuted (R130). -/
theorem absorbBytes_to_end {s : State} (hw : Window s) (hm : s.S.wf) (bs : List Byte)
    (h : s.offset.toNat + bs.length = s.rate.toNat) :
    ∃ u : Memory, u.wf ∧ absorbBytes bs s = .next { s with S := permute u, offset := 0 } ∧
      ∀ i, u.read i =
        if s.offset.toNat ≤ i ∧ i < s.offset.toNat + bs.length then s.S.read i ^^^ bs.getD (i - s.offset.toNat) 0
        else s.S.read i := by
  obtain ⟨as, b, rfl⟩ : ∃ as b, bs = as ++ [b] := by
    rcases List.eq_nil_or_concat bs with rfl | ⟨as, b, rfl⟩
    · have := hw.2.2
      simp at h
      omega
    · exact ⟨as, b, by simp⟩
  rw [List.length_append, List.length_singleton] at *
  obtain ⟨u, hu, hr, hread⟩ := absorbBytes_below hw hm as (by omega)
  let v : State := { s with S := u, offset := BitVec.ofNat 8 (s.offset.toNat + as.length) }
  have hvo : v.offset.toNat = s.offset.toNat + as.length := by
    have := hw.2
    show (BitVec.ofNat 8 _).toNat = _
    rw [BitVec.toNat_ofNat, Nat.mod_eq_of_lt (by omega)]
  have ho : v.offset.toNat < 200 := by have := hw.2; omega
  let w : State := { v with S := u.write v.offset.toNat (u.read v.offset.toNat ^^^ b) }
  have hww : Window w := ⟨hw.1, hw.2.1, by show v.offset.toNat < s.rate.toNat; omega⟩
  refine ⟨u.write v.offset.toNat (u.read v.offset.toNat ^^^ b), Memory.wf_write hu ho _, ?_, fun i => ?_⟩
  · rw [absorbBytes_append, hr, andThen_next, absorbBytes_cons]
    show andThen (absorbByte b v) _ = _
    rw [absorbByte_eq ho, andThen_next, absorbBytes_nil]
    show Host.Outcome.next (advance w) = _
    rw [(advance_cases hww).1 (by show v.offset.toNat + 1 = s.rate.toNat; omega)]
  · rw [Memory.read_write hu, hread, hread, hvo]
    by_cases hi : i = s.offset.toNat + as.length
    · subst hi
      rw [if_pos rfl, if_neg (by omega), if_pos (by omega)]
      congr 1
      simp
    · rw [if_neg hi]
      by_cases h' : s.offset.toNat ≤ i ∧ i < s.offset.toNat + as.length
      · rw [if_pos h', if_pos (by omega)]
        congr 1
        rw [List.getD_append _ _ _ _ (by omega)]
      · rw [if_neg h', if_neg (by omega)]

end Sys2Proof.Machine
end

