-- ==== Sys2Proof/Laws/PerInstr.lean ====
section
/-! SUPPORT. Facts about each command as syntax, one lemma per constructor. -/

namespace Sys2Proof.Laws.RowMatch

/-- The opcode table's mask of a command (R73). -/
def rowMask : Instr → Word
  | .init _ _ => 0xFFFFFFFFFF0000FF
  | .absorb _ => 0xFFFFFFFFFFFFFF0F
  | .pad => 0xFFFFFFFFFFFFFFFF
  | .squeeze _ => 0xFFFFFFFFFFFFFF0F
  | .final _ => 0xFFFFFFFFFFFFFF0F

/-- The opcode table's match of a command (R73). -/
def rowValue : Instr → Word
  | .init _ _ => 1
  | .absorb _ => 2
  | .pad => 3
  | .squeeze _ => 4
  | .final _ => 5

/-- A command's word matches its row of the opcode table (R73). -/
def Statement (i : Instr) : Prop := encode i &&& rowMask i = rowValue i

/-- The bits of a command word, field by field. -/
theorem getLsbD_commandWord (delim rate : Byte) (cnt op : BitVec 4) (i : Nat) :
    (commandWord delim rate cnt op).getLsbD i =
      if i < 4 then op.getLsbD i
      else if i < 8 then cnt.getLsbD (i - 4)
      else if i < 16 then rate.getLsbD (i - 8)
      else delim.getLsbD (i - 16) := by
  unfold commandWord
  rw [BitVec.zeroExtend, BitVec.getLsbD_setWidth, BitVec.getLsbD_append, BitVec.getLsbD_append,
    BitVec.getLsbD_append, Nat.sub_sub, Nat.sub_sub, show 4 + 4 + 8 = 16 from rfl, show 4 + 4 = 8 from rfl]
  by_cases h : i < 64
  · simp only [h, decide_true, Bool.true_and]
    by_cases h4 : i < 4
    · simp [h4]
    · simp only [h4, if_false]
      by_cases h8 : i < 8
      · simp [h8, show i - 4 < 4 by omega]
      · simp only [h8, show ¬ i - 4 < 4 by omega, if_false]
        by_cases h16 : i < 16
        · simp [h16, show i - 8 < 8 by omega]
        · simp [h16, show ¬ i - 8 < 8 by omega]
  · rw [BitVec.getLsbD_of_ge delim _ (by omega)]
    simp [h, show ¬ i < 4 by omega, show ¬ i < 8 by omega, show ¬ i < 16 by omega]

/-- A word whose RATE and DELIM are masked out. -/
theorem commandWord_and_wide (delim rate : Byte) (op : BitVec 4) :
    commandWord delim rate 0 op &&& 0xFFFFFFFFFF0000FF = op.zeroExtend 64 := by
  apply BitVec.eq_of_getLsbD_eq
  intro i hi
  rw [BitVec.getLsbD_and, getLsbD_commandWord, BitVec.zeroExtend, BitVec.getLsbD_setWidth]
  interval_cases i <;> simp

/-- A word whose CNT is masked out. -/
theorem commandWord_and_count (n op : BitVec 4) :
    commandWord 0 0 n op &&& 0xFFFFFFFFFFFFFF0F = op.zeroExtend 64 := by
  apply BitVec.eq_of_getLsbD_eq
  intro i hi
  rw [BitVec.getLsbD_and, getLsbD_commandWord, BitVec.zeroExtend, BitVec.getLsbD_setWidth]
  interval_cases i <;> simp

theorem init (rate delim : Byte) : Statement (.init rate delim) := commandWord_and_wide delim rate 1

theorem absorb (n : BitVec 4) : Statement (.absorb n) := commandWord_and_count n 2

theorem pad : Statement .pad := rfl

theorem squeeze (n : BitVec 4) : Statement (.squeeze n) := commandWord_and_count n 4

theorem final (n : BitVec 4) : Statement (.final n) := commandWord_and_count n 5

end Sys2Proof.Laws.RowMatch
end

