-- ==== Sys2Proof/Laws/Decode.lean ====
section
/-! SUPPORT. The fields of a command word, and everything the decoder accepts. -/

namespace Sys2Proof

open Sys2Proof.Laws.RowMatch

/-! ### The fields of a command word (R70) -/

@[simp] theorem opField_commandWord (d r : Byte) (n o : BitVec 4) : opField (commandWord d r n o) = o := by
  apply BitVec.eq_of_getLsbD_eq
  intro i hi
  simp [opField, getLsbD_commandWord, hi]

@[simp] theorem cntField_commandWord (d r : Byte) (n o : BitVec 4) : cntField (commandWord d r n o) = n := by
  apply BitVec.eq_of_getLsbD_eq
  intro i hi
  simp [cntField, getLsbD_commandWord, hi, show ¬ 4 + i < 4 by omega, show 4 + i < 8 by omega]

@[simp] theorem rateField_commandWord (d r : Byte) (n o : BitVec 4) : rateField (commandWord d r n o) = r := by
  apply BitVec.eq_of_getLsbD_eq
  intro i hi
  simp [rateField, getLsbD_commandWord, hi, show ¬ 8 + i < 4 by omega, show ¬ 8 + i < 8 by omega,
    show 8 + i < 16 by omega]

@[simp] theorem delimField_commandWord (d r : Byte) (n o : BitVec 4) : delimField (commandWord d r n o) = d := by
  apply BitVec.eq_of_getLsbD_eq
  intro i hi
  simp [delimField, getLsbD_commandWord, hi, show ¬ 16 + i < 4 by omega, show ¬ 16 + i < 8 by omega,
    show ¬ 16 + i < 16 by omega]

@[simp] theorem resField_commandWord (d r : Byte) (n o : BitVec 4) : resField (commandWord d r n o) = 0 := by
  apply BitVec.eq_of_getLsbD_eq
  intro i hi
  simp only [resField, BitVec.getLsbD_extractLsb', getLsbD_commandWord, show ¬ 24 + i < 4 by omega,
    show ¬ 24 + i < 8 by omega, show ¬ 24 + i < 16 by omega, if_false,
    BitVec.getLsbD_of_ge d (24 + i - 16) (by omega), Bool.and_false]
  simp

/-- A word with RES zero is the word of its own fields: the other four fields hold all its bits. -/
theorem commandWord_fields {c : Word} (h : resField c = 0) :
    commandWord (delimField c) (rateField c) (cntField c) (opField c) = c := by
  apply BitVec.eq_of_getLsbD_eq
  intro i hi
  rw [getLsbD_commandWord]
  simp only [delimField, rateField, cntField, opField, BitVec.getLsbD_extractLsb']
  by_cases h4 : i < 4
  · simp [h4]
  by_cases h8 : i < 8
  · simp [h4, h8, show i - 4 < 4 by omega, show 4 + (i - 4) = i by omega]
  by_cases h16 : i < 16
  · simp [h4, h8, h16, show i - 8 < 8 by omega, show 8 + (i - 8) = i by omega]
  by_cases h24 : i < 24
  · simp [h4, h8, h16, show i - 16 < 8 by omega, show 16 + (i - 16) = i by omega]
  · have := congrArg (fun v => BitVec.getLsbD v (i - 24)) h
    simp only [resField, BitVec.getLsbD_extractLsb', show i - 24 < 40 by omega, show 24 + (i - 24) = i by omega,
      decide_true, Bool.true_and] at this
    simp [h4, h8, h16, show ¬ i - 16 < 8 by omega, this]

/-- When the decoder accepts (R77 (b), (c)). -/
theorem accept_ok {c : Word} {z : Bool} {i j : Instr} :
    accept c z i = .ok j ↔ resField c = 0 ∧ z = true ∧ j = i := by
  unfold accept
  split
  · simp_all
  · split <;> simp_all [eq_comm]

/-- Everything the decoder accepts (R72, R77). -/
theorem decode_ok {c : Word} {j : Instr} : decode c = .ok j ↔ resField c = 0 ∧
    ((opField c = 1 ∧ cntField c = 0 ∧ j = .init (rateField c) (delimField c)) ∨
     (opField c = 2 ∧ rateField c = 0 ∧ delimField c = 0 ∧ j = .absorb (cntField c)) ∨
     (opField c = 3 ∧ cntField c = 0 ∧ rateField c = 0 ∧ delimField c = 0 ∧ j = .pad) ∨
     (opField c = 4 ∧ rateField c = 0 ∧ delimField c = 0 ∧ j = .squeeze (cntField c)) ∨
     (opField c = 5 ∧ rateField c = 0 ∧ delimField c = 0 ∧ j = .final (cntField c))) := by
  have e : ∀ k : Nat, k < 16 → ((opField c).toNat = k ↔ opField c = BitVec.ofNat 4 k) := by
    intro k hk
    rw [← BitVec.toNat_inj, BitVec.toNat_ofNat, Nat.mod_eq_of_lt (by omega)]
  unfold decode
  split <;> rename_i h
  all_goals try rw [e _ (by omega)] at h
  all_goals try simp only [accept_ok]
  all_goals try (simp [h, and_assoc]; done)
  · rename_i h1 h2 h3 h4
    have h5 := h
    refine ⟨fun h => by simp at h, ?_⟩
    rintro ⟨-, h | h | h | h | h⟩
    · exact (h1 (by rw [h.1]; rfl)).elim
    · exact (h2 (by rw [h.1]; rfl)).elim
    · exact (h3 (by rw [h.1]; rfl)).elim
    · exact (h4 (by rw [h.1]; rfl)).elim
    · exact (h5 h.1).elim

end Sys2Proof
end

