-- ==== Sys2Proof/Laws/Invariant.lean ====
section
/-! SUPPORT. What the invariants of R33 give a command, and what a command gives them. -/

namespace Sys2Proof.Machine

/-- A computation that goes on has its window. -/
theorem inv_window {s : State} (h : Inv s) (hm : s.mode = .absorbing ∨ s.mode = .squeezing) : Window s :=
  h.2.1 (hm.elim .inl fun h => .inr (.inl h))

/-- The window of the state that padding leaves (R132). -/
theorem window_padded {s : State} (hw : Window s) :
    Window { s with
      S := permute (padBuffer s.offset.toNat s.rate.toNat s.delim s.S), offset := 0, mode := .squeezing } :=
  ⟨hw.1, hw.2.1, hw.1⟩

/-- A permitted command's effect completes, in a window and with a canonical buffer. -/
theorem effectOf_completes {i : Instr} {s : State} (h : Inv s) (hp : Permitted i s) :
    ∃ t, effectOf i s = .next t ∧ Window t ∧ t.S.wf := by
  cases i with
  | init rt dl => exact ⟨_, rfl, ⟨hp.1, hp.2, hp.1⟩, Memory.wf_nil⟩
  | absorb n =>
    obtain ⟨t, ht, hw, hm, -⟩ := absorbBytes_completes (inv_window h (.inl hp.2)) h.1 (bytesOf s.din n.toNat)
    exact ⟨t, ht, hw, hm⟩
  | pad =>
    have hw := inv_window h (.inl hp)
    exact ⟨_, padAndTransition_eq hw, window_padded hw, wf_permute _⟩
  | squeeze n =>
    obtain ⟨bs, t, -, ht, hw, hm, -⟩ := squeezeToDout_completes (inv_window h (.inr hp.2)) h.1 n.toNat
    exact ⟨_, ht, hw, hm⟩
  | final n =>
    have hw := inv_window h hp.2
    simp only [effectOf]
    by_cases ha : s.mode = .absorbing
    · rw [if_pos ha, padAndTransition_eq hw, andThen_next]
      obtain ⟨bs, t, -, ht, hw, hm, -⟩ := squeezeToDout_completes (window_padded hw) (wf_permute _) n.toNat
      exact ⟨(t.setDout (wordOfBytes bs)).setMode .consumed, by rw [ht]; rfl, hw, hm⟩
    · rw [if_neg ha, andThen_next]
      obtain ⟨bs, t, -, ht, hw, hm, -⟩ := squeezeToDout_completes hw h.1 n.toNat
      exact ⟨(t.setDout (wordOfBytes bs)).setMode .consumed, by rw [ht]; rfl, hw, hm⟩

/-- A computation in its window, with no fault recorded, is sound. -/
theorem inv_of_window {t : State} (hw : Window t) (hm : t.S.wf) (h1 : t.mode ≠ .fault) (h2 : t.mode ≠ .idle)
    (h3 : t.fcode = .none) (h4 : t.fcmd = 0) : Inv t :=
  ⟨hm, fun _ => hw, fun h => absurd h h2, fun h => absurd h h1, fun _ => ⟨h3, h4⟩⟩

/-- Fault entry keeps a sound state sound (R33 (c)). -/
theorem inv_enterFault {s : State} (h : Inv s) (hm : s.mode ≠ .fault) {f : FaultCode} (hf : f ≠ .none) (c : Word) :
    Inv (enterFault f c s) := by
  refine ⟨h.1, by simp [enterFault], by simp [enterFault], fun _ => ⟨?_, hf⟩, by simp [enterFault]⟩
  cases hs : s.mode with
  | idle => exact .inr (h.2.2.1 hs)
  | absorbing => exact .inl (h.2.1 (.inl hs))
  | squeezing => exact .inl (h.2.1 (.inr (.inl hs)))
  | consumed => exact .inl (h.2.1 (.inr (.inr hs)))
  | fault => exact absurd hs hm

end Sys2Proof.Machine
end

