-- ==== Sys2Proof/Laws/Pending.lean ====
section
/-! SUPPORT. What the host still has to do is read by `step` alone: no access, and nothing a command does, depends
on it or changes it (log entry 1). -/

namespace Sys2Proof.Machine

/-- An outcome with the host's list set in its next state. -/
def withPending (l : List HostAction) : Host.Outcome State Fault Refusal → Host.Outcome State Fault Refusal
  | .next t => .next (t.setPending l)
  | .fault r => .fault r
  | .refused r => .refused r

theorem andThen_withPending {l : List HostAction} (o : Host.Outcome State Fault Refusal)
    (f g : State → Host.Outcome State Fault Refusal) (h : ∀ t, g (t.setPending l) = withPending l (f t)) :
    andThen (withPending l o) g = withPending l (andThen o f) := by
  cases o <;> simp [withPending, h]

theorem advance_setPending (l : List HostAction) (s : State) :
    advance (s.setPending l) = (advance s).setPending l := by
  by_cases h : s.offset + 1 = s.rate <;> simp only [advance, State.setPending, h, if_true, if_false]

theorem absorbByte_setPending (l : List HostAction) (b : Byte) (s : State) :
    absorbByte b (s.setPending l) = withPending l (absorbByte b s) := by
  by_cases h : s.offset.toNat < 200
  · rw [absorbByte_eq h, absorbByte_eq (s := s.setPending l) h]
    exact congrArg Host.Outcome.next (advance_setPending l
      { s with S := s.S.write s.offset.toNat (s.S.read s.offset.toNat ^^^ b) })
  · rw [absorbByte_stops (s := s) (Nat.le_of_not_lt h), absorbByte_stops (s := s.setPending l) (Nat.le_of_not_lt h)]
    rfl

theorem absorbBytes_setPending (l : List HostAction) (bs : List Byte) (s : State) :
    absorbBytes bs (s.setPending l) = withPending l (absorbBytes bs s) := by
  induction bs generalizing s with
  | nil => rfl
  | cons b bs ih =>
    rw [absorbBytes_cons, absorbBytes_cons, absorbByte_setPending]
    exact andThen_withPending _ _ _ ih

theorem squeezeBytes_setPending (l : List HostAction) (n : Nat) (s : State) :
    squeezeBytes n (s.setPending l) = andThen (squeezeBytes n s) fun r => .next (r.1, r.2.setPending l) := by
  induction n generalizing s with
  | zero => rfl
  | succ n ih =>
    rw [squeezeBytes_succ, squeezeBytes_succ]
    by_cases h : s.offset.toNat < 200
    · rw [squeezeByte_eq h, squeezeByte_eq (s := s.setPending l) h]
      simp only [andThen_next, advance_setPending, ih]
      cases squeezeBytes n (advance s) <;> rfl
    · rw [squeezeByte_stops (s := s) (Nat.le_of_not_lt h),
        squeezeByte_stops (s := s.setPending l) (Nat.le_of_not_lt h)]
      rfl

theorem squeezeToDout_setPending (l : List HostAction) (n : Nat) (s : State) :
    squeezeToDout n (s.setPending l) = withPending l (squeezeToDout n s) := by
  rw [squeezeToDout, squeezeToDout, squeezeBytes_setPending]
  cases squeezeBytes n s <;> rfl

theorem padAndTransition_setPending (l : List HostAction) (s : State) :
    padAndTransition (s.setPending l) = withPending l (padAndTransition s) := by
  unfold padAndTransition
  by_cases h : s.offset.toNat < 200 ∧ 1 ≤ s.rate.toNat ∧ s.rate.toNat ≤ 200 <;>
    simp only [State.setPending, h, and_self, if_true, if_false, withPending]

theorem effectOf_setPending (l : List HostAction) (i : Instr) (s : State) :
    effectOf i (s.setPending l) = withPending l (effectOf i s) := by
  cases i with
  | init rt dl => rfl
  | absorb n => exact absorbBytes_setPending _ _ _
  | pad => exact padAndTransition_setPending _ _
  | squeeze n => exact squeezeToDout_setPending _ _ _
  | final n =>
    have last : ∀ t : State,
        andThen (squeezeToDout n.toNat (t.setPending l)) (fun u => .next (u.setMode .consumed)) =
          withPending l (andThen (squeezeToDout n.toNat t) fun u => .next (u.setMode .consumed)) := fun t => by
      rw [squeezeToDout_setPending]
      exact andThen_withPending _ _ _ fun _ => rfl
    simp only [effectOf]
    by_cases hm : s.mode = .absorbing
    · rw [if_pos (show (s.setPending l).mode = _ from hm), if_pos hm, padAndTransition_setPending]
      exact andThen_withPending _ _ _ last
    · rw [if_neg (show ¬ (s.setPending l).mode = _ from hm), if_neg hm]
      exact last s

theorem exec_setPending (l : List HostAction) (i : Instr) (s : State) :
    exec i (s.setPending l) = withPending l (exec i s) := by
  have hc : checksOf i (s.setPending l) = checksOf i s := by cases i <;> rfl
  rw [exec_eq, exec_eq, hc]
  unfold command
  rw [State.setPending_mode]
  split
  · rfl
  · split
    · rfl
    · exact effectOf_setPending _ _ _

theorem executeWord_setPending (l : List HostAction) (c : Word) (s : State) :
    executeWord c (s.setPending l) = withPending l (executeWord c s) := by
  unfold executeWord
  split
  · exact exec_setPending _ _ _
  · unfold illegalCommand command
    rw [State.setPending_mode]
    split <;> rfl

theorem checkedAccess_withPending (l : List HostAction) (offset width : Nat) (o : Host.Outcome State Fault Refusal) :
    checkedAccess offset width (withPending l o) = withPending l (checkedAccess offset width o) := by
  unfold checkedAccess
  split
  · rfl
  · split <;> rfl

/-- No access depends on what the host will do after it. -/
theorem perform_setPending (l : List HostAction) (a : HostAction) (s : State) :
    perform a (s.setPending l) = withPending l (perform a s) := by
  cases a with
  | read offset width =>
    have e : readRegister offset (s.setPending l) = readRegister offset s := by unfold readRegister; split <;> rfl
    show checkedAccess offset width _ = _
    rw [e]
    exact checkedAccess_withPending l offset width (.next (s.observe (readRegister offset s)))
  | write offset width v =>
    show checkedAccess offset width _ = withPending l (checkedAccess offset width _)
    rw [← checkedAccess_withPending]
    congr 1
    unfold writeRegister
    split
    · exact executeWord_setPending _ _ _
    · rfl
    · rfl
  | reset => rfl

/-- No access changes what the host will do after it. -/
theorem perform_pending {a : HostAction} {s t : State} (h : perform a s = .next t) : t.pending = s.pending := by
  have e := perform_setPending s.pending a s
  rw [State.setPending_self, h] at e
  rw [Host.Outcome.next.inj e]
  rfl

/-- A run of one step more, in the model's own names. -/
theorem core_run_succ (k : Nat) (s : State) :
    Host.Core.run core (k + 1) s = andThen (step s) fun t => Host.Core.run core k t := by
  refine (Host.Core.run.eq_2 core s k).trans ?_
  cases h : step s with
  | next t => rw [show core.step s = .next t from h]; rfl
  | fault r => rw [show core.step s = .fault r from h]; rfl
  | refused r => rw [show core.step s = .refused r from h]; rfl

end Sys2Proof.Machine
end

