-- ==== Sys2Proof/Laws/Status.lean ====
section
/-! SUPPORT. The fields of STATUS (R29). -/

namespace Sys2Proof.Machine

/-- STATUS bit by bit. -/
theorem getLsbD_status (s : State) (i : Nat) : (status s).getLsbD i =
    if i < 3 then s.mode.code.getLsbD i
    else if i < 8 then false
    else if i < 16 then s.offset.getLsbD (i - 8)
    else if i < 24 then s.rate.getLsbD (i - 16)
    else if i < 32 then s.delim.getLsbD (i - 24)
    else s.fcode.code.getLsbD (i - 32) := by
  unfold status
  rw [BitVec.zeroExtend, BitVec.getLsbD_setWidth, BitVec.getLsbD_append, BitVec.getLsbD_append,
    BitVec.getLsbD_append, BitVec.getLsbD_append, BitVec.getLsbD_append]
  by_cases h : i < 64
  · simp only [h, decide_true, Bool.true_and, Nat.sub_sub]
    by_cases h3 : i < 3
    · simp [h3]
    by_cases h8 : i < 8
    · simp [h3, h8, show i - 3 < 5 by omega]
    have h5 : ¬ i - 3 < 5 := by omega
    by_cases h16 : i < 16
    · simp [h3, h8, h16, h5, show i - 8 < 8 by omega]
    by_cases h24 : i < 24
    · simp [h3, h8, h16, h24, h5, show ¬ i - 8 < 8 by omega, show i - 16 < 8 by omega]
    by_cases h32 : i < 32
    · simp [h3, h8, h16, h24, h32, h5, show ¬ i - 8 < 8 by omega, show ¬ i - 16 < 8 by omega,
        show i - 24 < 8 by omega]
    · simp [h3, h8, h16, h24, h32, h5, show ¬ i - 8 < 8 by omega, show ¬ i - 16 < 8 by omega,
        show ¬ i - 24 < 8 by omega]
  · rw [BitVec.getLsbD_of_ge s.fcode.code (i - 32) (by omega)]
    simp [h, show ¬ i < 3 by omega, show ¬ i < 8 by omega, show ¬ i < 16 by omega, show ¬ i < 24 by omega,
      show ¬ i < 32 by omega]

/-- A field of STATUS from its bits. -/
theorem status_field {s : State} {lo w : Nat} {v : BitVec w}
    (h : ∀ i, i < w → (status s).getLsbD (lo + i) = v.getLsbD i) : (status s).extractLsb' lo w = v := by
  apply BitVec.eq_of_getLsbD_eq
  intro i hi
  rw [BitVec.getLsbD_extractLsb', h i hi, decide_eq_true hi, Bool.true_and]

/-- STATUS.MODE. -/
theorem status_mode (s : State) : (status s).extractLsb' 0 3 = s.mode.code :=
  status_field fun i hi => by rw [getLsbD_status, Nat.zero_add, if_pos hi]

/-- STATUS.OFFSET. -/
theorem status_offset (s : State) : (status s).extractLsb' 8 8 = s.offset :=
  status_field fun i hi => by
    rw [getLsbD_status, if_neg (by omega), if_neg (by omega), if_pos (by omega), Nat.add_sub_cancel_left]

/-- STATUS.RATE. -/
theorem status_rate (s : State) : (status s).extractLsb' 16 8 = s.rate :=
  status_field fun i hi => by
    rw [getLsbD_status, if_neg (by omega), if_neg (by omega), if_neg (by omega), if_pos (by omega),
      Nat.add_sub_cancel_left]

/-- STATUS.DELIM. -/
theorem status_delim (s : State) : (status s).extractLsb' 24 8 = s.delim :=
  status_field fun i hi => by
    rw [getLsbD_status, if_neg (by omega), if_neg (by omega), if_neg (by omega), if_neg (by omega),
      if_pos (by omega), Nat.add_sub_cancel_left]

/-- STATUS.FCODE. -/
theorem status_fcode (s : State) : (status s).extractLsb' 32 4 = s.fcode.code :=
  status_field fun i hi => by
    rw [getLsbD_status, if_neg (by omega), if_neg (by omega), if_neg (by omega), if_neg (by omega),
      if_neg (by omega), Nat.add_sub_cancel_left]

/-- The reserved bits 7:3 of STATUS. -/
theorem status_reserved_low (s : State) : (status s).extractLsb' 3 5 = 0 :=
  status_field fun i hi => by rw [getLsbD_status, if_neg (by omega), if_pos (by omega)]; simp

/-- The reserved bits 63:36 of STATUS. -/
theorem status_reserved_high (s : State) : (status s).extractLsb' 36 28 = 0 :=
  status_field fun i hi => by
    rw [getLsbD_status, if_neg (by omega), if_neg (by omega), if_neg (by omega), if_neg (by omega),
      if_neg (by omega), BitVec.getLsbD_of_ge _ _ (by omega)]
    simp

end Sys2Proof.Machine
end

