-- ==== Sys2Proof/Machine/AsmText.lean ====
section
/-! DEFINITION. The assembler's text: one host action per line, numbers in decimal or `0x` hexadecimal, and `;` before
a comment (R80, R81). Spaces separate words and are otherwise free, and a blank line is no action
(DESIGN CHOICE, log entry 11). -/

namespace Sys2Proof.Machine

/-- End the word whose letters `acc` holds in reverse, in front of `rest`. -/
def endWord (acc : List Char) (rest : List (List Char)) : List (List Char) :=
  if acc = [] then rest else acc.reverse :: rest

/-- The words of a line up to its comment; a comma is a word of its own. `acc` holds the word begun, in reverse. -/
def asmWords (acc : List Char) : List Char → List (List Char)
  | [] => endWord acc []
  | c :: cs =>
    if c = ';' then endWord acc []
    else if c = ' ' ∨ c = '\t' ∨ c = '\r' then endWord acc (asmWords [] cs)
    else if c = ',' then endWord acc ([','] :: asmWords [] cs)
    else asmWords (c :: acc) cs

/-- The value of a digit below `base`. -/
def digitValue (base : Nat) (c : Char) : Option Nat :=
  let v :=
    if '0'.toNat ≤ c.toNat ∧ c.toNat ≤ '9'.toNat then c.toNat - '0'.toNat
    else if 'a'.toNat ≤ c.toNat ∧ c.toNat ≤ 'f'.toNat then c.toNat - 'a'.toNat + 10
    else if 'A'.toNat ≤ c.toNat ∧ c.toNat ≤ 'F'.toNat then c.toNat - 'A'.toNat + 10
    else base
  if v < base then some v else none

/-- The value of a string of digits after the value `v`. -/
def digitsValue (base v : Nat) : List Char → Option Nat
  | [] => some v
  | c :: cs =>
    match digitValue base c with
    | some d => digitsValue base (base * v + d) cs
    | none => none

/-- A number, decimal or `0x` hexadecimal (R80). -/
def asmNumber : List Char → Option Nat
  | [] => none
  | ['0', 'x'] => none
  | '0' :: 'x' :: ds => digitsValue 16 0 ds
  | ds => digitsValue 10 0 ds

/-- Numbers with commas between them. -/
def asmOperands : List (List Char) → Option (List Nat)
  | [] => some []
  | [w] => (asmNumber w).map fun n => [n]
  | w :: comma :: rest =>
    if comma = [','] ∧ rest ≠ [] then
      match asmNumber w, asmOperands rest with
      | some n, some ns => some (n :: ns)
      | _, _ => none
    else none

/-- The lines that have no operand, by name. -/
def plainLines : List (List Char × AsmLine) :=
  [(['P', 'A', 'D'], .pad),
   (['R', 'D', 'O', 'U', 'T'], .rdout),
   (['R', 'S', 'T', 'A', 'T', 'U', 'S'], .rstatus),
   (['R', 'F', 'C', 'M', 'D'], .rfcmd),
   (['R', 'E', 'S', 'E', 'T'], .reset),
   (['K', 'E', 'C', 'C', 'A', 'K', '2', '2', '4'], .keccak 224),
   (['K', 'E', 'C', 'C', 'A', 'K', '2', '5', '6'], .keccak 256),
   (['K', 'E', 'C', 'C', 'A', 'K', '3', '8', '4'], .keccak 384),
   (['K', 'E', 'C', 'C', 'A', 'K', '5', '1', '2'], .keccak 512),
   (['S', 'H', 'A', '3', '_', '2', '2', '4'], .sha3 224),
   (['S', 'H', 'A', '3', '_', '2', '5', '6'], .sha3 256),
   (['S', 'H', 'A', '3', '_', '3', '8', '4'], .sha3 384),
   (['S', 'H', 'A', '3', '_', '5', '1', '2'], .sha3 512),
   (['S', 'H', 'A', 'K', 'E', '1', '2', '8'], .shake 128),
   (['S', 'H', 'A', 'K', 'E', '2', '5', '6'], .shake 256)]

/-- A 64-bit operand; a wider number is refused. -/
def wordOperand (f : Word → AsmLine) (n : Nat) : Option AsmLine :=
  if n < 2 ^ 64 then some (f (BitVec.ofNat 64 n)) else none

/-- The line a name and its operands spell (R80, R81). -/
def asmLineOf (name : List Char) (operands : List Nat) : Option AsmLine :=
  match operands with
  | [] => (plainLines.find? fun p => p.1 = name).map Prod.snd
  | [n] =>
    if name = ['A', 'B', 'S', 'O', 'R', 'B'] then some (.absorb n)
    else if name = ['S', 'Q', 'U', 'E', 'E', 'Z', 'E'] then some (.squeeze n)
    else if name = ['F', 'I', 'N', 'A', 'L'] then some (.final n)
    else if name = ['S', 'Q', 'U', 'E', 'E', 'Z', 'E', 'N'] then some (.squeezen n)
    else if name = ['D', 'I', 'G', 'E', 'S', 'T'] then some (.digest n)
    else if name = ['.', 'c', 'm', 'd'] then wordOperand .cmd n
    else if name = ['W', 'D', 'I', 'N'] then wordOperand .wdin n
    else if name = ['A', 'B', 'S', 'O', 'R', 'B', 'B'] ∧ n < 256 then some (.absorbb [BitVec.ofNat 8 n])
    else none
  | [a, b] =>
    if name = ['I', 'N', 'I', 'T'] then some (.init a b)
    else if name = ['A', 'B', 'S', 'O', 'R', 'B', 'B'] ∧ a < 256 ∧ b < 256 then
      some (.absorbb [BitVec.ofNat 8 a, BitVec.ofNat 8 b])
    else none
  | ns =>
    if name = ['A', 'B', 'S', 'O', 'R', 'B', 'B'] ∧ (∀ n ∈ ns, n < 256) then
      some (.absorbb (ns.map (BitVec.ofNat 8)))
    else none

/-- The host actions of a line of text: none where the assembler refuses it. -/
def assembleLine (cs : List Char) : Option (List HostAction) :=
  match asmWords [] cs with
  | [] => some []
  | name :: rest => (asmOperands rest).bind fun ns => (asmLineOf name ns).bind assemble

/-- The lines of a text. `acc` holds the line begun, in reverse. -/
def textLines (acc : List Char) : List Char → List (List Char)
  | [] => [acc.reverse]
  | c :: cs => if c = '\n' then acc.reverse :: textLines [] cs else textLines (c :: acc) cs

/-- Line after line. -/
def assembleLines : List (List Char) → Option (List HostAction)
  | [] => some []
  | l :: ls => (assembleLine l).bind fun a => (assembleLines ls).map fun b => a ++ b

/-- A program's text to its host actions, in order (R80). -/
def assembleText (text : List Char) : Option (List HostAction) := assembleLines (textLines [] text)

end Sys2Proof.Machine
end

