-- ==== Sys2Proof/Tests/Slice0.lean ====
section
/-! SUPPORT. Tests with expected values from 95_test_vectors.md and the rules, and a witness for the hypotheses of
every statement that has some. -/

namespace Sys2Proof.Tests

open Sys2Proof.Machine Sys2Proof.Claims

/-! ### Helpers -/

/-- The next state of an outcome (the reset state for a stop). -/
def after : Host.Outcome State Fault Refusal → State
  | .next t => t
  | _ => State.reset

/-- Whether an outcome is a next state. -/
def goesOn : Host.Outcome State Fault Refusal → Bool
  | .next _ => true
  | _ => false

theorem eq_next {o : Host.Outcome State Fault Refusal} (h : goesOn o = true) : o = .next (after o) := by
  cases o <;> first | rfl | cases h

/-- A state in mode `m` with these parameters and buffer. -/
def inMode (m : Mode) (rate offset delim : Byte) (S : Memory) : State :=
  { State.reset with mode := m, rate := rate, offset := offset, delim := delim, S := S }

/-- A state in Fault: ABSORB 0 was written in Squeezing, at offset 3 of 136. -/
def faultState : State := { inMode .fault 136 3 0x06 [] with fcode := .order, fcmd := 0x2 }

/-- One step that writes `c` to CMD. -/
def cmd (c : Word) (s : State) : State := after (step (s.setPending [.write 0x00 64 c]))

/-- The first bytes of the buffer after PAD of the empty message under SHA3_256 (V-S1). -/
def digestHead : Memory :=
  [(0, 0xA7), (1, 0xFF), (2, 0xC6), (3, 0xF8), (4, 0xBF), (5, 0x1E), (6, 0xD7), (7, 0x66), (8, 0x51)]

/-! ### Well-formedness: one ill-formed command for each check (R74, R75), and the bounds that pass -/

theorem test_rate_0_refused : (Instr.init 0 0x06).wellFormed = false := by decide
theorem test_rate_200_refused : (Instr.init 200 0x06).wellFormed = false := by decide
theorem test_absorb_9_refused : (Instr.absorb 9).wellFormed = false := by decide
theorem test_squeeze_9_refused : (Instr.squeeze 9).wellFormed = false := by decide
theorem test_final_15_refused : (Instr.final 15).wellFormed = false := by decide
theorem test_bounds_pass :
    (Instr.init 1 0xFF).wellFormed ∧ (Instr.init 199 0).wellFormed ∧ (Instr.absorb 8).wellFormed ∧
      (Instr.squeeze 0).wellFormed ∧ (Instr.final 8).wellFormed ∧ Instr.pad.wellFormed := by decide

/-! ### Decoding: words written out field by field from R70, RES DELIM RATE CNT OP -/

theorem test_decode_init :
    decode 0b0000000000000000000000000000000000000000_00011111_10101000_0000_0001 = .ok (.init 168 0x1F) := rfl
theorem test_decode_absorb :
    decode 0b0000000000000000000000000000000000000000_00000000_00000000_0011_0010 = .ok (.absorb 3) := rfl
theorem test_decode_pad :
    decode 0b0000000000000000000000000000000000000000_00000000_00000000_0000_0011 = .ok .pad := rfl
theorem test_decode_squeeze :
    decode 0b0000000000000000000000000000000000000000_00000000_00000000_1111_0100 = .ok (.squeeze 15) := rfl
theorem test_decode_final :
    decode 0b0000000000000000000000000000000000000000_00000000_00000000_1000_0101 = .ok (.final 8) := rfl

/-- Section 2's illegal words: OP 0, OP 15, RES bit 24, RES bit 63, RATE in ABSORB, CNT in PAD, CNT in INIT. -/
theorem test_decode_illegal :
    decode 0x0 = .error .opcode ∧ decode 0xF = .error .opcode ∧ decode 0x1000012 = .error .reserved ∧
      decode 0x8000000000000012 = .error .reserved ∧ decode 0x112 = .error .mustBeZero ∧
      decode 0x13 = .error .mustBeZero ∧ decode 0x68811 = .error .mustBeZero := by
  refine ⟨rfl, rfl, rfl, rfl, rfl, rfl, rfl⟩

/-- The opcode table's numbering: the match of PAD's row decodes to PAD, and step runs it first. -/
theorem test_table_word : decodeTableWord 64 0x3 = some .pad := rfl

/-- Section 2's encodings of INIT 1, 0xFF and SQUEEZE 1. -/
theorem test_encode : encode (.init 1 0xFF) = 0xFF0101 ∧ encode (.squeeze 1) = 0x14 := ⟨rfl, rfl⟩

/-! ### The assembler's text (R80, R81; P1's program and V-F1's words) -/

theorem test_text :
    assembleText "SHA3_256 ; start\n\nWDIN 0x636261\n  ABSORB 3\nRDOUT".toList =
      some [.write 0x00 64 0x68801, .write 0x08 64 0x636261, .write 0x00 64 0x32, .read 0x10 64] := by
  decide +kernel
theorem test_text_operands :
    assembleLine "ABSORBB 0x61, 0x62, 0x63".toList = some [.write 0x08 64 0x636261, .write 0x00 64 0x32] ∧
    assembleLine ".cmd 0x6c801".toList = some [.write 0x00 64 0x6C801] ∧
    assembleLine "INIT 200, 6".toList = none ∧ assembleLine "INIT 136".toList = none := by decide +kernel

/-! ### The permutation (section 3) -/

theorem test_rotl64 :
    rotl64 0x8000000000000001 1 = 0x3 ∧ rotl64 0x0123456789ABCDEF 64 = 0x0123456789ABCDEF := by decide

/-- V-P2, one lane of each column. -/
theorem test_theta :
    let A := theta (Lanes.ofFn fun x y => if x = 0 ∧ y = 0 then 1 else 0)
    A.lane 0 0 = 1 ∧ A.lane 0 1 = 0 ∧ A.lane 1 3 = 1 ∧ A.lane 4 4 = 2 ∧ A.lane 2 2 = 0 := by decide +kernel

/-- V-P3, the whole of round 1: lanes of its last table. -/
theorem test_round_1 :
    let A := keccakRound (keccakRound (Lanes.ofFn fun _ _ => 0) 0) 1
    A.lane 0 0 = 0x8083 ∧ A.lane 4 0 = 0x0000100000008000 ∧ A.lane 1 1 = 0x0000200000200000 ∧
      A.lane 3 2 = 0x202 ∧ A.lane 0 3 = 0x10000400 ∧ A.lane 2 4 = 0x0000010000000004 := by decide +kernel

/-- V-P4, pi. -/
theorem test_pi :
    (pi (Lanes.ofFn fun x y => if x = 0 ∧ y = 1 then 0xBB else 0)).lane 1 3 = 0xBB := by decide

/-- V-P5. -/
theorem test_keccakF :
    let A := keccakF (Lanes.ofFn fun _ _ => 0)
    A.lane 0 0 = 0xF1258F7940E1DDE7 ∧ A.lane 1 0 = 0x84D5CCF933C0478A ∧ A.lane 0 1 = 0xFF97A42D7F8E6FD4 ∧
      A.lane 4 4 = 0xEAF1FF7B5CECA249 := by decide +kernel

/-! ### The commands: one step each -/

/-- V-S8: INIT 136, 0x06 after reset. -/
theorem test_init : status (cmd 0x68801 State.reset) = 0x06880001 := by decide

/-- INIT abandons a computation: the buffer and DOUT are zeroed (R133). -/
theorem test_init_abandons :
    let t := cmd 0x1FA801 { inMode .squeezing 136 5 0x06 digestHead with dout := 7, din := 9 }
    t.S = [] ∧ t.dout = 0 ∧ t.din = 9 ∧ status t = 0x1FA80001 := by decide

/-- P1: ABSORB 3 of "abc", byte 0 of DIN first. -/
theorem test_absorb :
    let t := cmd 0x32 { inMode .absorbing 136 0 0x06 [] with din := 0x636261 }
    status t = 0x06880301 ∧ t.S = [(0, 0x61), (1, 0x62), (2, 0x63)] := by decide

/-- Absorbing a byte twice restores it: XOR, with equal bytes (R130). -/
theorem test_absorb_xors :
    (cmd 0x12 { inMode .absorbing 136 1 0x06 [(1, 0x61)] with din := 0x61 }).S = [] := by decide

/-- V-S8 and V-S1: PAD of the empty message; the digest's first byte. -/
theorem test_pad :
    let t := cmd 0x3 (inMode .absorbing 136 0 0x06 [])
    status t = 0x06880002 ∧ t.S.read 0 = 0xA7 ∧ t.S.read 1 = 0xFF := by decide +kernel

/-- P3: at offset = rate - 1 the delimiter and 0x80 share one byte, before the Permute. -/
theorem test_pad_shared_byte : (padBuffer 7 8 0x1F []).read 7 = 0x9F := by decide +kernel

/-- V-S8: SQUEEZE 4 of that buffer. -/
theorem test_squeeze :
    let t := cmd 0x44 (inMode .squeezing 136 0 0x06 digestHead)
    t.dout = 0xF8C6FFA7 ∧ status t = 0x06880402 := by decide

/-- V-S8: SQUEEZE 0 sets DOUT to 0. -/
theorem test_squeeze_0 :
    let t := cmd 0x4 { inMode .squeezing 136 4 0x06 digestHead with dout := 0xF8C6FFA7 }
    t.dout = 0 ∧ status t = 0x06880402 := by decide

/-- P4: FINAL 8 from Absorbing, Keccak-256 of the empty message. -/
theorem test_final_pads :
    let t := cmd 0x85 (inMode .absorbing 136 0 0x01 [])
    t.dout = 0x3C23F7860146D2C5 ∧ status t = 0x01880803 := by decide +kernel

/-- P3: FINAL 8 at rate 8: pads at offset = rate - 1, and its eight bytes fill the window (R137). -/
theorem test_final_fills :
    let t := cmd 0x85 { inMode .absorbing 8 7 0x1F [(0, 0x61), (1, 0x62), (2, 0x63), (3, 0x64), (4, 0x65),
      (5, 0x66), (6, 0x67)] with din := 0x67666564636261 }
    t.dout = 0x8AD12489DCB677C9 ∧ status t = 0x1F080003 := by decide +kernel

/-! ### Faults (V-F1, V-F2) and reset -/

theorem test_illegal_command : status (cmd 0x0 State.reset) = 0x100000004 := by decide
theorem test_bad_rate : status (cmd 0x6FF01 (inMode .absorbing 136 0 0x06 [])) = 0x206880004 := by decide
theorem test_count_before_mode : status (cmd 0x92 State.reset) = 0x300000004 := by decide
theorem test_not_configured :
    let t := cmd 0x85 State.reset
    status t = 0x400000004 ∧ t.fcmd = 0x85 := by decide
theorem test_order : status (cmd 0x84 (inMode .absorbing 136 0 0x06 [])) = 0x506880004 := by decide
theorem test_consumed : status (cmd 0x85 (inMode .consumed 136 8 0x06 [])) = 0x606880804 := by decide
theorem test_ignored_in_fault : cmd 0x68801 faultState = faultState := by decide
theorem test_reset : after (perform .reset faultState) = State.reset := by decide

/-! ### Witnesses

For each statement with hypotheses, concrete states and operands that meet them, for each of its clauses. -/

/-- The word 0x92 and its like: a row of R73 met, with a count above 8; and rates 0, 200 and 255. -/
theorem witness_MatchAndMask :
    decode 0x60001 = .ok (.init 0 6) ∧ decode 0x6C801 = .ok (.init 200 6) ∧ decode 0x6FF01 = .ok (.init 255 6) ∧
    decode 0x92 = .ok (.absorb 9) ∧ decode 0xF4 = .ok (.squeeze 15) ∧ decode 0x95 = .ok (.final 9) ∧
    State.reset.mode ≠ .fault ∧ (∀ p ∈ rows, (0x6 : Word) &&& p.1 ≠ p.2) := by
  exact ⟨rfl, rfl, rfl, rfl, rfl, rfl, by decide, by simp [rows]⟩

theorem witness_EncodeOfDecode : decode 0x85 = .ok (.final 8) := rfl

theorem witness_IllegalWords :
    IllegalWord 0x0 ∧ IllegalWord 0x6 ∧ IllegalWord 0xF ∧ IllegalWord 0x1000012 ∧ IllegalWord 0x8000000000000012 ∧
    IllegalWord 0x13 ∧ IllegalWord 0x68811 ∧ IllegalWord 0x112 ∧ IllegalWord 0x800004 ∧ ¬ IllegalWord 0x60001 ∧
    ¬ IllegalWord 0xF2 ∧ State.reset.mode ≠ .fault := by
  and_intros <;> decide +kernel

theorem witness_Assembler :
    (1 ≤ 1 ∧ 1 ≤ 199 ∧ 255 ≤ 255) ∧ (1 ≤ 199 ∧ 199 ≤ 199 ∧ 0 ≤ 255) ∧ ¬ (1 ≤ 0 ∧ 0 ≤ 199 ∧ 0 ≤ 255) ∧
    ¬ (1 ≤ 200 ∧ 200 ≤ 199 ∧ 0 ≤ 255) ∧ ¬ (1 ≤ 1 ∧ 1 ≤ 199 ∧ 256 ≤ 255) ∧ 8 ≤ 8 ∧ 8 < 9 := by decide

theorem witness_Presets : 128 ∉ [224, 256, 384, 512] ∧ 512 ∉ [128, 256] := by decide

theorem witness_Step :
    (State.reset.setPending [.write 0x00 64 0x3]).pending = [.write 0x00 64 0x3] ∧ decode 0x3 = .ok .pad ∧
    State.reset.pending = [] := ⟨rfl, rfl, rfl⟩

theorem witness_StatusFields : Inv State.reset ∧ State.reset.mode = .idle := by decide

theorem witness_RegisterMap :
    (0x10 < 0x40 ∧ 0x10 % 8 = 0 ∧ 0x10 ≠ 0x00 ∧ 0x10 ≠ 0x08) ∧ (0x38 < 0x40 ∧ 0x38 % 8 = 0 ∧ 0x38 ≠ 0x00) ∧
    perform (.write 0x08 64 5) State.reset = .next (State.reset.setDin 5) ∧
    (HostAction.write 0x08 64 5 ≠ .reset ∧ ∀ c, HostAction.write 0x08 64 5 ≠ .write 0x00 64 c) :=
  ⟨by decide, by decide, rfl, by simp, by simp⟩

theorem witness_BadAccesses :
    (0x3C < 0x40 ∧ 0x3C % 8 ≠ 0) ∧ (0x00 < 0x40 ∧ 32 ≠ 64) ∧ 0x40 ≤ 0x40 := by decide

theorem witness_Idempotent : (0x38 < 0x40 ∧ 0x38 % 8 = 0 ∧ 0x38 ≠ 0x00 ∧ 0x38 ≠ 0x08) ∧ 0x00 < 0x40 := by decide

theorem witness_NoRead : perform (.read 0x18 64) State.reset = .next (State.reset.observe 0) := rfl

/-- ABSORB 8 at the end of a window less one byte, from Absorbing. -/
theorem witness_Din :
    exec (.absorb 8) (inMode .absorbing 136 127 0x06 []) =
      .next (after (exec (.absorb 8) (inMode .absorbing 136 127 0x06 []))) ∧
    perform (.write 0x08 64 5) State.reset = .next (State.reset.setDin 5) :=
  ⟨eq_next (by decide +kernel), rfl⟩

/-- SQUEEZE and FINAL of 0 and of 8 bytes, INIT, ABSORB, a fault; PAD. -/
theorem witness_Dout :
    (∀ n ∈ [0#4, 8#4],
      exec (.squeeze n) (inMode .squeezing 136 0 6 digestHead) =
        .next (after (exec (.squeeze n) (inMode .squeezing 136 0 6 digestHead))) ∧
      (after (exec (.squeeze n) (inMode .squeezing 136 0 6 digestHead))).mode ≠ .fault ∧
      exec (.final n) (inMode .squeezing 136 0 6 digestHead) =
        .next (after (exec (.final n) (inMode .squeezing 136 0 6 digestHead))) ∧
      (after (exec (.final n) (inMode .squeezing 136 0 6 digestHead))).mode ≠ .fault) ∧
    exec (.init 136 6) State.reset = .next (State.reset.begin 136 6) ∧ (State.reset.begin 136 6).mode ≠ .fault ∧
    perform .reset faultState = .next State.reset ∧
    exec .pad (inMode .absorbing 136 0 6 []) = .next (after (exec .pad (inMode .absorbing 136 0 6 []))) ∧
    executeWord 0x84 State.reset = .next (enterFault .notConfigured 0x84 State.reset) := by
  refine ⟨fun n hn => ?_, rfl, by decide, rfl, eq_next (by decide +kernel), rfl⟩
  rcases List.mem_cons.mp hn with rfl | hn
  · exact ⟨eq_next (by decide), by decide, eq_next (by decide), by decide⟩
  · obtain rfl := List.mem_singleton.mp hn
    exact ⟨eq_next (by decide), by decide, eq_next (by decide), by decide⟩

theorem witness_FaultEntry :
    State.reset.mode ≠ .fault ∧ executeWord 0x84 State.reset = .next (faulted .notConfigured 0x84 State.reset) ∧
    (faulted .notConfigured 0x84 State.reset).mode = .fault := ⟨by decide, rfl, rfl⟩

theorem witness_Fcmd :
    State.reset.mode ≠ .fault ∧ executeWord 0x0 State.reset = .next (faulted .illegalCommand 0x0 State.reset) ∧
    perform (.write 0x00 64 0x0) State.reset = .next (faulted .illegalCommand 0x0 State.reset) :=
  ⟨by decide, rfl, rfl⟩

theorem witness_RateAndDelim :
    perform (.write 0x00 64 0x4) (inMode .squeezing 136 0 6 []) =
      .next (after (perform (.write 0x00 64 0x4) (inMode .squeezing 136 0 6 []))) := eq_next (by decide)

/-- Sound states in every mode, at the ends of the window's range. -/
theorem witness_Inv :
    Inv State.reset ∧ Inv (inMode .absorbing 1 0 0 []) ∧ Inv (inMode .absorbing 199 198 0xFF [(199, 1)]) ∧
    Inv (inMode .squeezing 136 135 6 digestHead) ∧ Inv (inMode .consumed 8 0 6 []) ∧ Inv faultState := by
  and_intros <;> decide +kernel

/-- A step of a sound state that goes on, and one that enters Fault. -/
theorem witness_StepKeeps :
    Inv (State.reset.setPending [.write 0x00 64 0x3]) ∧
    step (State.reset.setPending [.write 0x00 64 0x3]) = .next (faulted .notConfigured 0x3 State.reset) ∧
    State.reset.mode ≠ .fault ∧ (faulted .notConfigured 0x3 State.reset).mode = .fault := ⟨by decide, rfl, by decide, rfl⟩

/-- Completion: every command permitted in a sound state, at its operands' bounds; rate 1 for the nine. -/
theorem witness_Completes :
    Inv (inMode .absorbing 1 0 6 []) ∧ (inMode .absorbing 1 0 6 []).mode = .absorbing ∧
    (inMode .absorbing 1 0 6 []).rate = 1 ∧
    Instr.absorb 8 ∈ [Instr.absorb 8, .squeeze 8, .final 8] ∧
    exec (.absorb 8) (inMode .absorbing 136 0 6 []) =
      .next (after (exec (.absorb 8) (inMode .absorbing 136 0 6 []))) ∧
    (after (exec (.absorb 8) (inMode .absorbing 136 0 6 []))).mode ≠ .fault :=
  ⟨by decide, rfl, rfl, by decide, eq_next (by decide), by decide⟩

/-- R173: a word and a mode for each code, and one that passes. -/
theorem witness_FirstFailing :
    faultState.mode = .fault ∧ decidingCode 0x0 State.reset = some .illegalCommand ∧
    decidingCode 0x92 State.reset = some .badCount ∧ decidingCode 0x6C801 State.reset = some .badRate ∧
    decidingCode 0x3 State.reset = some .notConfigured ∧
    decidingCode 0x85 (inMode .consumed 136 8 6 []) = some .consumed ∧
    decidingCode 0x12 (inMode .squeezing 136 0 6 []) = some .order ∧
    decidingCode 0x84 (inMode .absorbing 136 0 6 []) = some .order ∧
    decidingCode 0x84 (inMode .squeezing 136 0 6 []) = none ∧ Inv (inMode .squeezing 136 0 6 []) ∧
    (inMode .squeezing 136 0 6 []).mode ≠ .fault := by decide

theorem witness_FaultMode : faultState.mode = .fault ∧ 0x38 < 0x40 ∧ 0x38 % 8 = 0 := by decide

theorem witness_OnlyReset :
    faultState.mode = .fault ∧ perform .reset faultState = .next State.reset ∧ State.reset.mode ≠ .fault :=
  ⟨rfl, rfl, by decide⟩

theorem witness_FirstFault :
    faultState.mode = .fault ∧ HostAction.reset ∉ [HostAction.write 0x00 64 0x3, .write 0x08 64 1] ∧
    performAll [.write 0x00 64 0x3, .write 0x08 64 1] faultState = .next (faultState.setDin 1) :=
  ⟨rfl, by decide, rfl⟩

/-- Counts 0 and 8, and two sound states of one mode with different data. -/
theorem witness_FaultsData :
    Inv (inMode .absorbing 136 135 6 []) ∧ (0#4).toNat ≤ 8 ∧ (8#4).toNat ≤ 8 ∧
    Inv (inMode .squeezing 136 0 6 digestHead) ∧ Inv (inMode .squeezing 1 0 0xFF []) ∧
    (inMode .squeezing 136 0 6 digestHead).mode = (inMode .squeezing 1 0 0xFF []).mode ∧
    (inMode .squeezing 1 0 0xFF []).mode ≠ .fault := by
  and_intros <;> decide +kernel

theorem witness_ModeTransitions :
    (Inv (inMode .consumed 136 8 6 []) ∧ (Instr.init 199 0).wellFormed ∧ (Instr.final 8).wellFormed) ∧
    ¬ (1 ≤ (200#8).toNat ∧ (200#8).toNat ≤ 199) ∧ ¬ (1 ≤ (0#8).toNat ∧ (0#8).toNat ≤ 199) ∧ 8 < (9#4).toNat ∧
    Instr.squeeze 9 ∈ [Instr.absorb 9, .squeeze 9, .final 9] ∧ IllegalWord 0x7 := by decide

theorem witness_OnlyInit :
    perform .reset faultState = .next State.reset ∧
    perform (.write 0x00 64 0x68801) State.reset = .next (State.reset.begin 136 6) ∧
    State.reset.mode ≠ .absorbing ∧ (State.reset.begin 136 6).mode = .absorbing ∧
    faultState.mode = .fault ∧ State.reset.mode ≠ .fault := ⟨rfl, rfl, by decide, rfl, rfl, by decide⟩

theorem witness_Init :
    (1 ≤ (1#8).toNat ∧ (1#8).toNat ≤ 199) ∧ (1 ≤ (199#8).toNat ∧ (199#8).toNat ≤ 199) ∧
    ((0#8).toNat = 0 ∧ 200 ≤ (200#8).toNat) ∧
    ((0x68811 : Word).extractLsb' 0 4 = 1 ∧ (0x68811 : Word).extractLsb' 4 4 ≠ 0) ∧
    ((0x1068801 : Word).extractLsb' 0 4 = 1 ∧ (0x1068801 : Word).extractLsb' 24 40 ≠ 0) ∧
    (inMode .squeezing 136 0 6 []).mode ≠ .fault ∧ faultState.mode = .fault := by decide

/-- In the window's last byte, before it, and in the only byte of rate 1. -/
theorem witness_Window :
    (Window (inMode .absorbing 136 135 6 []) ∧ (135#8).toNat + 1 = (136#8).toNat) ∧
    (Window (inMode .squeezing 136 134 6 []) ∧ (134#8).toNat + 1 ≠ (136#8).toNat) ∧
    Window (inMode .absorbing 1 0 6 []) ∧ (inMode .absorbing 136 135 6 []).S.wf := by decide

/-- Below the window's end by one, exactly at it, and one short of a second fill. -/
theorem witness_AbsorbResult :
    (Inv (inMode .absorbing 136 127 6 []) ∧ (8#4).toNat ≤ 8 ∧ 127 + (8#4).toNat < (136#8).toNat) ∧
    (Inv (inMode .absorbing 136 128 6 []) ∧ (136#8).toNat ≤ 128 + (8#4).toNat ∧ 128 + 8 < 2 * (136#8).toNat) ∧
    (Inv (inMode .absorbing 8 7 6 []) ∧ (8#8).toNat ≤ 7 + (8#4).toNat ∧ 7 + (8#4).toNat < 2 * (8#8).toNat) ∧
    Inv (inMode .absorbing 136 135 6 []) := by
  and_intros <;> decide +kernel

theorem witness_DinBytes :
    (∀ k, k < (2#4).toNat → regByte 0x996261 k = regByte (0x636261 : Word) k) ∧
    exec (.absorb 2) { inMode .absorbing 136 0 6 [] with din := 0x636261 } =
      .next (after (exec (.absorb 2) { inMode .absorbing 136 0 6 [] with din := 0x636261 })) :=
  ⟨by decide, eq_next (by decide)⟩

theorem witness_Pad :
    Inv (inMode .absorbing 136 135 0x86 []) ∧ Inv (inMode .absorbing 136 0 6 []) ∧
    (inMode .absorbing 136 135 0x86 []).mode = .absorbing ∧ (135#8).toNat + 1 = (136#8).toNat := by
  and_intros <;> decide +kernel

theorem witness_SqueezeByte :
    Window (inMode .squeezing 136 130 6 []) ∧ 130 + 0 ≤ (136#8).toNat ∧ 130 + 6 = (136#8).toNat ∧
    130 + 5 < (136#8).toNat := by decide

theorem witness_Squeeze :
    Inv (inMode .squeezing 136 130 6 digestHead) ∧ (inMode .squeezing 136 130 6 digestHead).mode = .squeezing ∧
    (0#4).toNat ≤ 8 ∧ (8#4).toNat ≤ 8 ∧ Inv (inMode .absorbing 136 135 6 []) := by
  and_intros <;> decide +kernel

/-- Frames: a command that completes in each way, and the counts that stay one byte short of the window's end. -/
theorem witness_Frames :
    exec (.absorb 8) (inMode .absorbing 136 127 6 []) =
      .next (after (exec (.absorb 8) (inMode .absorbing 136 127 6 []))) ∧
    (after (exec (.absorb 8) (inMode .absorbing 136 127 6 []))).mode ≠ .fault ∧
    exec .pad State.reset = .next (faulted .notConfigured 0x3 State.reset) ∧
    Window (inMode .absorbing 136 127 6 []) ∧ (inMode .absorbing 136 127 6 []).S.wf ∧
    127 + (8#4).toNat < (136#8).toNat ∧
    exec (.squeeze 8) (inMode .squeezing 136 127 6 []) =
      .next (after (exec (.squeeze 8) (inMode .squeezing 136 127 6 []))) ∧
    exec (.final 8) (inMode .squeezing 136 127 6 []) =
      .next (after (exec (.final 8) (inMode .squeezing 136 127 6 []))) ∧
    exec (.absorb 0) (inMode .absorbing 136 127 6 []) = .next (inMode .absorbing 136 127 6 []) :=
  ⟨eq_next (by decide +kernel), by decide +kernel, rfl, by decide, by decide, by decide,
    eq_next (by decide +kernel), eq_next (by decide +kernel), rfl⟩

/-- A capacity byte changed by reset, by INIT and by PAD's Permute. -/
theorem witness_Capacity :
    Inv (inMode .absorbing 136 0 6 [(199, 7)]) ∧ (136#8).toNat ≤ 199 ∧
    perform .reset (inMode .absorbing 136 0 6 [(199, 7)]) = .next State.reset ∧
    State.reset.S.read 199 ≠ (inMode .absorbing 136 0 6 [(199, 7)]).S.read 199 ∧
    goesOn (perform (.write 0x00 64 0x3) (inMode .absorbing 136 0 6 [])) = true ∧
    (after (perform (.write 0x00 64 0x3) (inMode .absorbing 136 0 6 []))).S.read 136 ≠ 0 ∧
    absorbByte 1 (inMode .absorbing 136 0 6 []) = .next (after (absorbByte 1 (inMode .absorbing 136 0 6 []))) ∧
    padAndTransition (inMode .absorbing 136 0 6 []) =
      .next (after (padAndTransition (inMode .absorbing 136 0 6 []))) ∧
    squeezeByte (inMode .squeezing 136 0 6 digestHead) =
      .next (0xA7, advance (inMode .squeezing 136 0 6 digestHead)) :=
  ⟨by decide, by decide, rfl, by decide, by decide +kernel, by decide +kernel, eq_next (by decide),
    eq_next (by decide +kernel), rfl⟩

theorem witness_Counts :
    Inv (inMode .squeezing 136 0 6 []) ∧
    exec (.squeeze 8) (inMode .squeezing 136 0 6 []) =
      .next (after (exec (.squeeze 8) (inMode .squeezing 136 0 6 []))) ∧
    (after (exec (.squeeze 8) (inMode .squeezing 136 0 6 []))).mode ≠ .fault ∧
    exec .pad (inMode .squeezing 136 0 6 []) = .next (faulted .order 0x3 (inMode .squeezing 136 0 6 [])) ∧
    Inv (inMode .absorbing 1 0 6 []) := ⟨by decide, eq_next (by decide), by decide, rfl, by decide⟩

/-- Two cuts of "abc" into chunks, one with an empty chunk (V-S9). -/
theorem witness_AbsorbSplit :
    Inv (inMode .absorbing 136 0 6 []) ∧ (∀ x ∈ [[0x61, 0x62, (0x63 : Byte)]], x.length ≤ 8) ∧
    (∀ x ∈ [[(0x61 : Byte)], [], [0x62, 0x63]], x.length ≤ 8) ∧
    [[0x61, 0x62, (0x63 : Byte)]].flatten = [[0x61], [], [0x62, 0x63]].flatten := by decide

/-- Six SQUEEZE 3 and a FINAL 0, against four SQUEEZE 8 (V-S9). -/
theorem witness_SqueezeSplit :
    Inv (inMode .squeezing 168 0 0x1F []) ∧ (∀ n ∈ [3, 3, 3, 3, 3, 3] ++ (some 0).toList, n ≤ 8) ∧
    (∀ n ∈ [8, 8, 8, 8] ++ (none : Option Nat).toList, n ≤ 8) ∧
    ([3, 3, 3, 3, 3, 3] ++ (some 0).toList).sum ≤ ([8, 8, 8, 8] ++ (none : Option Nat).toList).sum := by decide

/-- No byte, one byte, a multiple of 8 and one above it. -/
theorem witness_Digest :
    1 = max 1 ((0 + 7) / 8) ∧ 1 = max 1 ((1 + 7) / 8) ∧ 4 = max 1 ((32 + 7) / 8) ∧ 5 = max 1 ((33 + 7) / 8) ∧
    Inv (inMode .absorbing 136 0 6 []) := by decide

/-- The first lane and the last of rate 136: lane 16 is [1,3]. -/
theorem witness_AlignedWord :
    (Inv (inMode .absorbing 136 0 6 []) ∧ (136#8).toNat % 8 = 0 ∧
      (0#8).toNat = 8 * ((0 : Fin 5).val + 5 * (0 : Fin 5).val)) ∧
    (Inv (inMode .absorbing 136 128 6 []) ∧ (128#8).toNat = 8 * ((1 : Fin 5).val + 5 * (3 : Fin 5).val)) := by
  and_intros <;> decide +kernel

theorem witness_PackAndByteWrite :
    digestHead.wf ∧ Memory.wf [(199, 1)] ∧ 199 < 200 ∧ (4 : Fin 5).val + 5 * (4 : Fin 5).val = 199 / 8 ∧
    (0 : Fin 5).val + 5 * (0 : Fin 5).val ≠ 199 / 8 ∧ 55 / 8 ≠ 199 % 8 := by decide

theorem witness_Bijective : (Lanes.ofFn fun _ _ => 0) ≠ Lanes.ofFn fun _ _ => 1 := by decide

/-- The last bit, the last step of the walk, the last round and round bit, and a bit no constant has. -/
theorem witness_RotationAndTables :
    63 < 64 ∧ 23 < 24 ∧ 6 < 7 ∧ (62 : Nat) ∉ [0, 1, 3, 7, 15, 31, 63] := by decide

/-- Even columns, an all-one lane, an all-zero row, the last round. -/
theorem witness_CornerCases :
    (let A := Lanes.ofFn fun x y => if y.val ≤ 1 then BitVec.ofNat 64 x.val else 0
     (∀ x, A.lane x 0 ^^^ A.lane x 1 ^^^ A.lane x 2 ^^^ A.lane x 3 ^^^ A.lane x 4 = 0) ∧ ∀ x, A.lane x 4 = 0) ∧
    (let A := Lanes.ofFn fun _ _ => BitVec.allOnes 64
     A.lane 4 4 = BitVec.allOnes 64 ∧ ∀ x, A.lane x 2 = BitVec.allOnes 64) ∧
    23 < 24 ∧ ((4 : Fin 5), (4 : Fin 5)) ≠ (0, 0) := by decide

/-- A platform of two engines; the bus reaches the first at any base address. -/
theorem witness_Platform :
    Platform.step 0 [State.reset, faultState] = .next [State.reset, faultState] ∧
    Platform.busWrite 0 (Config.baseAddr 0 + 0x38) 64 1 [State.reset, faultState] =
      .next [State.reset, faultState] ∧
    Platform.busRead 0 (Config.baseAddr 0 + 0x18) 64 [State.reset, faultState] =
      .next [State.reset.observe 0, faultState] := by
  refine ⟨rfl, ?_, ?_⟩
  · rw [Platform.busWrite, windowOffset, if_pos (by omega), Nat.add_sub_cancel_left]
    rfl
  · rw [Platform.busRead, windowOffset, if_pos (by omega), Nat.add_sub_cancel_left]
    rfl

theorem witness_MissingBytes :
    (inMode .absorbing 200 200 6 []).mode = .absorbing ∧ 200 ≤ (200#8).toNat ∧ 1 ≤ (1#4).toNat ∧ (8#4).toNat ≤ 8 ∧
    (0#8).toNat = 0 ∧ 200 < (201#8).toNat ∧ (inMode .squeezing 255 255 6 []).mode = .squeezing := by decide

theorem witness_SafeRuns :
    Inv State.reset ∧ HostAction.reset ∉ [HostAction.write 0x00 64 0x68801] ++ [HostAction.write 0x00 64 0x2] ∧
    SafeRun ([.write 0x00 64 0x68801] ++ [.write 0x00 64 0x2]) State.reset (State.reset.begin 136 6) :=
  ⟨by decide, by decide, rfl, rfl⟩

end Sys2Proof.Tests
end

section
/-! PROOFS of the family 00_scope: the rotation of R12, the step of R15, and the stops at missing bytes (R14). -/

namespace Sys2Proof.Machine

/-! ### Rotation -/

/-- The model's rotation is the library's: by a multiple of 64 the right shift is by 0 in the one and by 64 in the
other, and adds nothing to the word in either. -/
theorem rotl64_eq_rotateLeft (v : Word) (n : Nat) : rotl64 v n = v.rotateLeft n := by
  rw [rotl64, BitVec.rotateLeft_def]
  rcases Nat.eq_zero_or_pos (n % 64) with h0 | hpos
  · have hout : v >>> 64 = 0#64 := BitVec.ushiftRight_eq_zero (by omega)
    simp [h0, hout]
  · rw [Nat.mod_eq_of_lt (by omega : 64 - n % 64 < 64)]

/-- Settles O54: bit `i` moves to `i + n % 64` below bit 64, where the left shift brings it, or wraps to
`i + n % 64 - 64`, where the right shift does. -/
theorem rotationMovesBits : Obligations.RotationMovesBits := by
  refine ⟨fun v n i hi => ?_, fun v => ?_⟩
  · rw [rotl64_eq_rotateLeft, BitVec.getLsbD_rotateLeft]
    by_cases hwrap : i + n % 64 < 64
    · have hpos : (i + n) % 64 = i + n % 64 := by omega
      simp [hpos, hwrap]
    · have hpos : (i + n) % 64 = i + n % 64 - 64 := by omega
      have hlow : i + n % 64 - 64 < n % 64 := by omega
      have hback : 64 - n % 64 + (i + n % 64 - 64) = i := by omega
      simp [hpos, hlow, hback]
  · simp [rotl64]

/-! ### The step -/

/-- With no access left a step keeps the state (R23). -/
theorem step_of_no_access {s : State} (h : s.pending = []) : step s = .next s := by
  rw [step, h]

/-- A step performs the host's next access, taken off its list (R59). -/
theorem step_of_access {s : State} {a : HostAction} {rest : List HostAction} (h : s.pending = a :: rest) :
    step s = perform a (s.setPending rest) := by
  rw [step, h]

/-- A 64-bit write to offset 0x00 executes the word (R56). -/
theorem perform_write_cmd (c : Word) (s : State) : perform (.write 0x00 64 c) s = executeWord c s :=
  checkedAccess_ok (by decide) rfl _

/-- Settles O11: the access taken off the list is a CMD write, whose word runs as the command it decodes to. -/
theorem stepRunsTheDecodedCommand : Obligations.StepRunsTheDecodedCommand := by
  refine ⟨fun s c i rest hp hd => ?_, fun s a rest hp => step_of_access hp, fun s hp => step_of_no_access hp⟩
  calc step s = perform (.write 0x00 64 c) (s.setPending rest) := step_of_access hp
    _ = executeWord c (s.setPending rest) := perform_write_cmd c _
    _ = exec i (s.setPending rest) := executeWord_ok hd _

/-! ### Missing bytes -/

/-- The bytes ABSORB takes from DIN, when there is one, begin with byte 0. -/
theorem bytesOf_succ (w : Word) (n : Nat) :
    bytesOf w (n + 1) = byteOf w 0 :: (List.range n).map fun k => byteOf w (k + 1) := by
  rw [bytesOf, List.range_succ_eq_map, List.map_cons, List.map_map]
  rfl

/-- Absorbing at least one byte of DIN stops where the cursor's byte does not exist. -/
theorem absorbBytes_bytesOf_stops {s : State} (h : 200 ≤ s.offset.toNat) (w : Word) {n : Nat} (hn : 1 ≤ n) :
    absorbBytes (bytesOf w n) s = .fault .noSuchByte := by
  obtain ⟨m, rfl⟩ := Nat.exists_eq_add_of_le' hn
  rw [bytesOf_succ, absorbBytes_cons, absorbByte_stops h, andThen_fault]

/-- Squeezing at least one byte into DOUT stops where the cursor's byte does not exist. -/
theorem squeezeToDout_stops {s : State} (h : 200 ≤ s.offset.toNat) {n : Nat} (hn : 1 ≤ n) :
    squeezeToDout n s = .fault .noSuchByte := by
  obtain ⟨m, rfl⟩ := Nat.exists_eq_add_of_le' hn
  rw [squeezeToDout, squeezeBytes_succ, squeezeByte_stops h, andThen_fault, andThen_fault]

/-- Padding stops where `P[offset]` or `P[rate-1]` does not exist (R14, R132). -/
theorem padAndTransition_stops {s : State}
    (h : 200 ≤ s.offset.toNat ∨ s.rate.toNat = 0 ∨ 200 < s.rate.toNat) :
    padAndTransition s = .fault .noSuchByte := if_neg (by omega)

/-- A permitted command stops where its effect does. -/
theorem exec_stops {i : Instr} {s : State} {r : Fault} (hm : s.mode ≠ .fault) (hp : Permitted i s)
    (h : effectOf i s = .fault r) : exec i s = .fault r :=
  (exec_permitted hm hp).trans h

/-- FINAL's effect from Squeezing, where there is nothing left to pad, stops where its squeeze does. -/
theorem effectOf_final_stops {n : BitVec 4} {s : State} {r : Fault} (hm : s.mode = .squeezing)
    (h : squeezeToDout n.toNat s = .fault r) : effectOf (.final n) s = .fault r := by
  have hpad : s.mode ≠ .absorbing := by simp [hm]
  rw [effectOf, if_neg hpad, andThen_next, h, andThen_fault]

/-- Settles O58: each command is permitted, so it has its effect, and the effect stops at the missing byte. -/
theorem missingBytesStop : Obligations.MissingBytesStop := by
  refine ⟨fun s n hm ho h1 h8 => ?_, fun s n hm ho h1 h8 => ?_, fun s hm h => ?_⟩
  · exact exec_stops (by simp [hm]) ⟨h8, hm⟩ (absorbBytes_bytesOf_stops ho s.din h1)
  · have hstop := squeezeToDout_stops ho h1
    have hf : s.mode ≠ .fault := by simp [hm]
    exact ⟨exec_stops hf ⟨h8, hm⟩ hstop, exec_stops hf ⟨h8, .inr hm⟩ (effectOf_final_stops hm hstop)⟩
  · exact exec_stops (by simp [hm]) hm (padAndTransition_stops h)

end Sys2Proof.Machine
end

section
/-! PROOFS of the family 10_state: the registers and who writes them (R27 to R30, R34), the values after reset (R35),
and the frame of every command. -/

namespace Sys2Proof.Machine

/-! ### Single accesses -/

/-- An aligned 64-bit read inside the window hands the host the register's value (R56). -/
theorem perform_read {offset : Nat} (h : offset < 0x40) (h8 : offset % 8 = 0) (s : State) :
    perform (.read offset 64) s = .next (s.observe (readRegister offset s)) :=
  checkedAccess_ok h h8 _

/-- The host's write of DIN (R27). -/
theorem perform_write_din (v : Word) (s : State) : perform (.write 0x08 64 v) s = .next (s.setDin v) :=
  checkedAccess_ok (by decide) rfl _

/-- Every register beyond CMD and DIN ignores a write (R56). -/
theorem perform_write_ignored {offset : Nat} (h0 : 0x10 ≤ offset) (h : offset < 0x40) (h8 : offset % 8 = 0)
    (v : Word) (s : State) : perform (.write offset 64 v) s = .next s := by
  refine (checkedAccess_ok h h8 _).trans ?_
  unfold writeRegister
  split
  · omega
  · omega
  · rfl

/-- No register shows the buffer (R26, R31). -/
theorem readRegister_of_buffer (offset : Nat) (s : State) (m : Memory) :
    readRegister offset { s with S := m } = readRegister offset s := by
  unfold readRegister
  split <;> rfl

/-! ### Everything a command can do, for one piece of the state -/

/-- A command that does not leave the block in Fault was permitted and had its effect. -/
theorem exec_outside_fault {i : Instr} {s t : State} (h : exec i s = .next t) (ht : t.mode ≠ .fault) :
    s.mode ≠ .fault ∧ Permitted i s ∧ effectOf i s = .next t := by
  rcases exec_cases h with ⟨hm, rfl⟩ | ⟨-, -, f, -, -, rfl⟩ | ⟨hm, hp, he, -⟩
  · exact absurd hm ht
  · exact absurd rfl ht
  · exact ⟨hm, hp, he⟩

/-- A command keeps whatever fault entry keeps and its effect keeps. -/
theorem exec_keeps {α : Type} (g : State → α) {i : Instr} {s t : State} (h : exec i s = .next t)
    (hfault : ∀ f c, g (enterFault f c s) = g s)
    (heffect : Permitted i s → effectOf i s = .next t → g t = g s) : g t = g s := by
  rcases exec_cases h with ⟨-, rfl⟩ | ⟨-, -, f, -, -, rfl⟩ | ⟨-, hp, he, -⟩
  · rfl
  · exact hfault f _
  · exact heffect hp he

/-- The word of a decoded command is the CMD value it was decoded from (R71, R73). -/
theorem encode_of_decode {c : Word} {i : Instr} (h : decode c = .ok i) : encode i = c := by
  obtain ⟨hres, hrow⟩ := decode_ok.mp h
  have hc := commandWord_fields hres
  rcases hrow with ⟨ho, hn, rfl⟩ | ⟨ho, hr, hd, rfl⟩ | ⟨ho, hn, hr, hd, rfl⟩ | ⟨ho, hr, hd, rfl⟩ | ⟨ho, hr, hd, rfl⟩
  · rwa [ho, hn] at hc
  · rwa [ho, hr, hd] at hc
  · rwa [ho, hn, hr, hd] at hc
  · rwa [ho, hr, hd] at hc
  · rwa [ho, hr, hd] at hc

/-- Everything a CMD write of `c` can have done, whether or not `c` decodes: nothing, in Fault; entered Fault with `c`
recorded; or the effect of a permitted command. -/
theorem executeWord_outcome {c : Word} {s t : State} (h : executeWord c s = .next t) :
    (s.mode = .fault ∧ t = s) ∨
    (s.mode ≠ .fault ∧ ∃ f, f ≠ .none ∧ t = enterFault f c s) ∨
    (s.mode ≠ .fault ∧ t.mode ≠ .fault ∧ ∃ i, decode c = .ok i ∧ Permitted i s ∧ effectOf i s = .next t) := by
  rcases executeWord_cases h with ⟨i, hd, hx⟩ | ⟨e, -, hfault | ⟨hm, rfl⟩⟩
  · rcases exec_cases hx with hfault | ⟨hm, -, f, hf, -, rfl⟩ | ⟨hm, hp, he, ht⟩
    · exact .inl hfault
    · exact .inr (.inl ⟨hm, f, hf, by rw [encode_of_decode hd]⟩)
    · exact .inr (.inr ⟨hm, ht, i, hd, hp, he⟩)
  · exact .inl hfault
  · exact .inr (.inl ⟨hm, .illegalCommand, by decide, rfl⟩)

/-! ### DIN -/

/-- No command changes DIN or what is the host's own (R27). -/
theorem exec_host_frame {i : Instr} {s t : State} (h : exec i s = .next t) :
    t.din = s.din ∧ t.pending = s.pending ∧ t.observed = s.observed := by
  rcases exec_cases h with ⟨-, rfl⟩ | ⟨-, -, f, -, -, rfl⟩ | ⟨-, hp, he, -⟩
  · exact ⟨rfl, rfl, rfl⟩
  · exact ⟨rfl, rfl, rfl⟩
  · obtain ⟨-, hdin, -, -, hpending, hobserved⟩ := effectOf_frame hp he
    exact ⟨hdin, hpending, hobserved⟩

/-- No CMD write changes DIN (R27). -/
theorem executeWord_din {c : Word} {s t : State} (h : executeWord c s = .next t) : t.din = s.din := by
  rcases executeWord_outcome h with ⟨-, rfl⟩ | ⟨-, f, -, rfl⟩ | ⟨-, -, i, -, hp, he⟩
  · rfl
  · rfl
  · obtain ⟨-, hdin, -⟩ := effectOf_frame hp he
    exact hdin

/-- Settles O18: of the accesses, only a CMD write runs a command, and no command writes DIN. -/
theorem dinChangesOnlyByHostWrite : Obligations.DinChangesOnlyByHostWrite := by
  refine ⟨fun s v => ?_, fun i s t h => (exec_host_frame h).1, fun a s t h => ?_⟩
  · rw [performAll_cons, perform_write_din, andThen_next, performAll_cons, perform_read (by decide) rfl, andThen_next]
    rfl
  · rcases perform_cases h with ⟨_, -, rfl⟩ | ⟨c, -, hx⟩ | ⟨v, rfl, rfl⟩ | ⟨_, _, -, -, rfl⟩ | ⟨rfl, rfl⟩
    · exact .inl rfl
    · exact .inl (executeWord_din hx)
    · exact .inr (.inr ⟨v, rfl, rfl⟩)
    · exact .inl rfl
    · exact .inr (.inl ⟨rfl, rfl⟩)

/-! ### DOUT -/

/-- The bytes of a word made of at most 8 bytes, zero above them (R54). -/
theorem byteOf_wordOfBytes {bs : List Byte} (hl : bs.length ≤ 8) {k : Nat} (hk : k < 8) :
    byteOf (wordOfBytes bs) k = if k < bs.length then bs.getD k 0 else 0 :=
  byteOf_wordOfFn _ _ _ hl hk

/-- A squeeze into DOUT leaves there the bytes that SqueezeByte yields, zero above them (R28). -/
theorem squeezeToDout_bytes {n : Nat} {s t : State} (hn : n ≤ 8) (h : squeezeToDout n s = .next t) :
    ∃ bs u, squeezeBytes n s = .next (bs, u) ∧
      ∀ k, k < 8 → byteOf t.dout k = if k < n then bs.getD k 0 else 0 := by
  obtain ⟨bs, u, hu, rfl, rfl, -⟩ := squeezeToDout_next h
  exact ⟨bs, u, hu, fun k hk => byteOf_wordOfBytes hn hk⟩

/-- The two stages of FINAL's effect: padding when still absorbing, then the squeeze (R137). -/
theorem effectOf_final_next {n : BitVec 4} {s t : State} (h : effectOf (.final n) s = .next t) :
    ∃ p u, (if s.mode = .absorbing then padAndTransition s = .next p else p = s) ∧
      squeezeToDout n.toNat p = .next u ∧ t = u.setMode .consumed := by
  obtain ⟨p, hpad, h⟩ := andThen_eq_next.mp h
  obtain ⟨u, hu, h⟩ := andThen_eq_next.mp h
  refine ⟨p, u, ?_, hu, (Host.Outcome.next.inj h).symm⟩
  by_cases ha : s.mode = .absorbing
  · rwa [if_pos ha] at hpad ⊢
  · rw [if_neg ha] at hpad ⊢
    exact (Host.Outcome.next.inj hpad).symm

/-- ABSORB and PAD leave DOUT (R28). -/
theorem exec_keeps_dout {i : Instr} {s t : State} (hi : (∃ n, i = .absorb n) ∨ i = .pad) (h : exec i s = .next t) :
    t.dout = s.dout := by
  refine exec_keeps State.dout h (fun _ _ => rfl) fun _ he => ?_
  rcases hi with ⟨n, rfl⟩ | rfl
  · rw [absorbBytes_frame he]
  · rw [padAndTransition_next he]

/-- A CMD write that leaves the block in Fault, or finds it there, leaves DOUT (R28, R174, R176). -/
theorem executeWord_fault_dout {c : Word} {s t : State} (h : executeWord c s = .next t) (ht : t.mode = .fault) :
    t.dout = s.dout := by
  rcases executeWord_outcome h with ⟨-, rfl⟩ | ⟨-, f, -, rfl⟩ | ⟨-, hne, -⟩
  · rfl
  · rfl
  · exact absurd ht hne

/-- Settles O19: a command that ends outside Fault had its effect, and SQUEEZE's and FINAL's end in one squeeze. -/
theorem doutContents : Obligations.DoutContents := by
  refine ⟨fun s t n _ h ht => ?_, fun s t n _ h ht => ?_, fun s t rate delim h ht => ?_, fun s t h => ?_,
    fun s t n h => exec_keeps_dout (.inl ⟨n, rfl⟩) h, fun s t h => exec_keeps_dout (.inr rfl) h,
    fun s t c h ht => executeWord_fault_dout h ht, fun s v => perform_write_ignored (by decide) (by decide) rfl v s⟩
  · obtain ⟨-, hp, he⟩ := exec_outside_fault h ht
    exact squeezeToDout_bytes hp.1 he
  · obtain ⟨hm, hp, he⟩ := exec_outside_fault h ht
    obtain ⟨p, u, hpad, hu, rfl⟩ := effectOf_final_next he
    obtain ⟨bs, v, hv, hbytes⟩ := squeezeToDout_bytes hp.1 hu
    refine ⟨p, bs, v, ?_, hv, hbytes⟩
    by_cases ha : s.mode = .absorbing
    · rw [if_pos ha] at hpad ⊢
      exact (exec_permitted (i := .pad) hm ha).trans hpad
    · rwa [if_neg ha] at hpad ⊢
  · obtain ⟨-, -, he⟩ := exec_outside_fault h ht
    obtain rfl := Host.Outcome.next.inj he
    rfl
  · obtain rfl := Host.Outcome.next.inj h
    rfl

/-! ### FCMD -/

/-- A CMD write that takes the block into Fault records its value in FCMD (R30, R174). -/
theorem executeWord_fault_fcmd {c : Word} {s t : State} (hm : s.mode ≠ .fault) (h : executeWord c s = .next t)
    (ht : t.mode = .fault) : t.fcmd = c := by
  rcases executeWord_outcome h with ⟨hf, -⟩ | ⟨-, f, -, rfl⟩ | ⟨-, hne, -⟩
  · exact absurd hf hm
  · rfl
  · exact absurd ht hne

/-- A CMD write changes FCMD only on entry to Fault (R30). -/
theorem executeWord_fcmd {c : Word} {s t : State} (h : executeWord c s = .next t) :
    t.fcmd = s.fcmd ∨ (s.mode ≠ .fault ∧ t.mode = .fault) := by
  rcases executeWord_outcome h with ⟨-, rfl⟩ | ⟨hm, f, -, rfl⟩ | ⟨-, -, i, -, hp, he⟩
  · exact .inl rfl
  · exact .inr ⟨hm, rfl⟩
  · obtain ⟨-, -, -, hfcmd, -, -⟩ := effectOf_frame hp he
    exact .inl hfcmd

/-- Settles O20: fault entry is the one write of FCMD beside reset, and it writes the CMD value. -/
theorem fcmdRecordsTheFaultingCommand : Obligations.FcmdRecordsTheFaultingCommand := by
  refine ⟨rfl, fun s v => perform_write_ignored (by decide) (by decide) rfl v s,
    fun c s t hm h ht => executeWord_fault_fcmd hm h ht, fun a s t h => ?_⟩
  rcases perform_cases h with ⟨_, -, rfl⟩ | ⟨c, rfl, hx⟩ | ⟨v, -, rfl⟩ | ⟨_, _, -, -, rfl⟩ | ⟨rfl, rfl⟩
  · exact .inl rfl
  · exact (executeWord_fcmd hx).imp_right fun hentry => .inr ⟨c, rfl, hentry⟩
  · exact .inl rfl
  · exact .inl rfl
  · exact .inr (.inl ⟨rfl, rfl⟩)

/-! ### rate and delim -/

/-- No effect but INIT's writes rate or delim (R34). -/
theorem effectOf_rate_delim {i : Instr} {s t : State} (hi : ∀ rate delim, i ≠ .init rate delim)
    (h : effectOf i s = .next t) : t.rate = s.rate ∧ t.delim = s.delim := by
  cases i with
  | init rate delim => exact absurd rfl (hi rate delim)
  | absorb n =>
    rw [absorbBytes_frame h]
    exact ⟨rfl, rfl⟩
  | pad =>
    rw [padAndTransition_next h]
    exact ⟨rfl, rfl⟩
  | squeeze n =>
    obtain ⟨-, -, -, -, -, ht⟩ := squeezeToDout_next h
    rw [ht]
    exact ⟨rfl, rfl⟩
  | final n =>
    obtain ⟨p, u, hpad, hu, rfl⟩ := effectOf_final_next h
    obtain ⟨-, -, -, -, -, hu⟩ := squeezeToDout_next hu
    rw [hu]
    split at hpad
    · rw [padAndTransition_next hpad]
      exact ⟨rfl, rfl⟩
    · rw [hpad]
      exact ⟨rfl, rfl⟩

/-- A CMD write changes rate or delim only if its value is an INIT command's word (R34). -/
theorem executeWord_rate_delim {c : Word} {s t : State} (h : executeWord c s = .next t) :
    (t.rate = s.rate ∧ t.delim = s.delim) ∨ ∃ rate delim, c = encode (.init rate delim) := by
  rcases executeWord_outcome h with ⟨-, rfl⟩ | ⟨-, f, -, rfl⟩ | ⟨-, -, i, hd, -, he⟩
  · exact .inl ⟨rfl, rfl⟩
  · exact .inl ⟨rfl, rfl⟩
  · by_cases hi : ∃ rate delim, i = .init rate delim
    · obtain ⟨rate, delim, rfl⟩ := hi
      exact .inr ⟨rate, delim, (encode_of_decode hd).symm⟩
    · exact .inl (effectOf_rate_delim (fun rate delim e => hi ⟨rate, delim, e⟩) he)

/-- Settles O21: a CMD write is the one access beside reset that can write the two, and then it is INIT's. -/
theorem rateAndDelimWrittenOnlyByInitAndReset : Obligations.RateAndDelimWrittenOnlyByInitAndReset := by
  intro a s t h
  rcases perform_cases h with ⟨_, -, rfl⟩ | ⟨c, rfl, hx⟩ | ⟨v, -, rfl⟩ | ⟨_, _, -, -, rfl⟩ | ⟨rfl, rfl⟩
  · exact .inl ⟨rfl, rfl⟩
  · refine (executeWord_rate_delim hx).imp_right ?_
    rintro ⟨rate, delim, rfl⟩
    exact .inr ⟨rate, delim, rfl⟩
  · exact .inl ⟨rfl, rfl⟩
  · exact .inl ⟨rfl, rfl⟩
  · exact .inr (.inl rfl)

/-! ### The frame of every command -/

/-- A command that leaves the block in Fault, or finds it there, changes at most FCODE, FCMD and the mode
(R174, R176). -/
theorem exec_fault_frame {i : Instr} {s t : State} (h : exec i s = .next t) (ht : t.mode = .fault) :
    t = { s with fcode := t.fcode, fcmd := t.fcmd, mode := .fault } := by
  rcases exec_cases h with ⟨-, rfl⟩ | ⟨-, -, f, -, -, rfl⟩ | ⟨-, -, -, hne⟩
  · rw [← ht]
  · rfl
  · exact absurd ht hne

/-- A command that ends outside Fault records no fault (R30, R171). -/
theorem exec_keeps_fcode_fcmd {i : Instr} {s t : State} (h : exec i s = .next t) (ht : t.mode ≠ .fault) :
    t.fcode = s.fcode ∧ t.fcmd = s.fcmd := by
  obtain ⟨-, hp, he⟩ := exec_outside_fault h ht
  obtain ⟨-, -, hfcode, hfcmd, -, -⟩ := effectOf_frame hp he
  exact ⟨hfcode, hfcmd⟩

/-- No command but INIT writes rate or delim (R34). -/
theorem exec_rate_delim {i : Instr} {s t : State} (hi : ∀ rate delim, i ≠ .init rate delim)
    (h : exec i s = .next t) : t.rate = s.rate ∧ t.delim = s.delim :=
  ⟨exec_keeps State.rate h (fun _ _ => rfl) fun _ he => (effectOf_rate_delim hi he).1,
    exec_keeps State.delim h (fun _ _ => rfl) fun _ he => (effectOf_rate_delim hi he).2⟩

/-- Absorbing or squeezing no byte moves no cursor and touches no byte (R134, R136). -/
theorem exec_count_zero {i : Instr} {s t : State} (hi : i = .absorb 0 ∨ i = .squeeze 0) (h : exec i s = .next t) :
    t.offset = s.offset ∧ t.S = s.S := by
  refine Prod.mk.inj <| exec_keeps (fun s => (s.offset, s.S)) h (fun _ _ => rfl) fun _ he => ?_
  rcases hi with rfl | rfl
  · obtain rfl : s = t := Host.Outcome.next.inj he
    rfl
  · obtain rfl : s.setDout 0 = t := Host.Outcome.next.inj he
    rfl

/-- Absorbing that does not fill the window touches only the bytes it absorbs onto (R130). -/
theorem absorbBytes_read_outside {bs : List Byte} {s t : State} (hw : Window s) (hm : s.S.wf)
    (hfit : s.offset.toNat + bs.length < s.rate.toNat) (h : absorbBytes bs s = .next t) {a : Nat}
    (ha : ¬ (s.offset.toNat ≤ a ∧ a < s.offset.toNat + bs.length)) : t.S.read a = s.S.read a := by
  obtain ⟨u, -, hu, hread⟩ := absorbBytes_below hw hm bs hfit
  obtain rfl := Host.Outcome.next.inj (hu.symm.trans h)
  exact (hread a).trans (if_neg ha)

/-- A squeeze that reaches no window end permutes nothing, so it keeps the buffer (R131). -/
theorem squeezeToDout_buffer {n : Nat} {s t : State} (hw : Window s) (hfit : s.offset.toNat + n < s.rate.toNat)
    (h : squeezeToDout n s = .next t) : t.S = s.S := by
  rw [squeezeToDout, squeezeBytes_eq hw, andThen_next] at h
  obtain rfl := Host.Outcome.next.inj h
  rw [State.setDout_S, cursorAfter, Nat.div_eq_of_lt hfit, Function.iterate_zero_apply]

/-- Settles O42: each clause is the frame of the effects, carried over to the command by what a command can do. -/
theorem commandFrames : Obligations.CommandFrames := by
  refine ⟨fun i s t h => ?_, fun n s t hm hw hfit h a ha => ?_, fun n s t hw hfit h a => ?_⟩
  · obtain ⟨hdin, hpending, hobserved⟩ := exec_host_frame h
    exact ⟨hdin, hpending, hobserved, exec_keeps_fcode_fcmd h, exec_fault_frame h, fun hi => exec_rate_delim hi h,
      fun n hi => exec_keeps_dout (hi.imp_left fun e => ⟨n, e⟩) h, fun hi => exec_count_zero hi h⟩
  · have hlen : (bytesOf s.din n.toNat).length = n.toNat := by simp [bytesOf]
    rw [← hlen] at hfit ha
    exact exec_keeps (fun s => s.S.read a) h (fun _ _ => rfl) fun _ he => absorbBytes_read_outside hw hm hfit he ha
  · refine congrArg (Memory.read · a) ?_
    rcases h with h | ⟨hsq, h⟩
    · exact exec_keeps State.S h (fun _ _ => rfl) fun _ he => squeezeToDout_buffer hw hfit he
    · refine exec_keeps State.S h (fun _ _ => rfl) fun _ he => ?_
      obtain ⟨p, u, hpad, hu, rfl⟩ := effectOf_final_next he
      rw [if_neg (by simp [hsq])] at hpad
      subst hpad
      rw [State.setMode_S]
      exact squeezeToDout_buffer hw hfit hu

/-! ### Reset, STATUS and the hidden buffer -/

/-- Settles O9: every field of the reset state as R35 lists it, and STATUS shows nothing but zeros. -/
theorem resetValues : Obligations.ResetValues :=
  ⟨fun i _ => Memory.read_nil i, rfl, rfl, rfl, rfl, rfl, rfl, rfl, rfl, rfl⟩

/-- The model's fault codes are R171's numbers. -/
theorem code_eq_codeNumber (f : FaultCode) : f.code = Claims.codeNumber f := by
  cases f <;> rfl

/-- RATE reads 0 in a sound state in Idle, where no computation exists (R29, R33 (b)). -/
theorem status_rate_idle {s : State} (h : Inv s) (hm : s.mode = .idle) : (status s).extractLsb' 16 8 = 0 := by
  obtain ⟨-, -, hblank, -, -⟩ := h
  rw [status_rate, (hblank hm).1]

/-- Settles O13: STATUS's field laws, and the rules of a read and of an ignored write at offset 0x18. -/
theorem statusFields : Obligations.StatusFields := by
  refine ⟨rfl, fun s => ⟨?_, status_reserved_low s, status_offset s, status_rate s, status_delim s,
    (status_fcode s).trans (code_eq_codeNumber _), status_reserved_high s, status_rate_idle,
    perform_read (by decide) rfl s, fun v => perform_write_ignored (by decide) (by decide) rfl v s⟩⟩
  rw [status_mode]
  cases s.mode <;> rfl

/-- Settles O17: a read that has a move hands over a register's value, and no register shows the buffer. -/
theorem noReadExposesTheBuffer : Obligations.NoReadExposesTheBuffer := by
  intro s m offset width t h
  obtain ⟨hwindow, rfl, h8, hmove⟩ := checkedAccess_next h
  obtain rfl := Host.Outcome.next.inj hmove
  rw [perform_read hwindow h8, readRegister_of_buffer]
  rfl

/-- Settles O23: the reset state is blank and in Idle, with the empty buffer and no fault recorded. -/
theorem resetMeetsTheInvariants : Obligations.ResetMeetsTheInvariants := by
  have hblank : Blank State.reset := ⟨rfl, rfl, rfl, rfl⟩
  exact ⟨⟨Memory.wf_nil, by simp [State.reset], fun _ => hblank, by simp [State.reset], fun _ => ⟨rfl, rfl⟩⟩, rfl⟩

end Sys2Proof.Machine
end

section
/-! PROOFS of the family 20_memory: the register window and the host's accesses (R56, R57, R60, R63), and the lane view
of the buffer (R51, R52, R54, R55). -/

namespace Sys2Proof.Machine

/-! ### Accesses in host order -/

/-- A run of the machine over the host's list performs the list: each step takes the first access off it, and the
access neither sees nor changes the rest. -/
theorem core_run_setPending (as : List HostAction) (s : State) :
    Host.Core.run core as.length (s.setPending as) = performAll as (s.setPending []) := by
  induction as generalizing s with
  | nil => rfl
  | cons a as ih =>
    have hmove : step (s.setPending (a :: as)) = withPending as (perform a (s.setPending [])) :=
      (step_of_access rfl).trans (perform_setPending as a (s.setPending []))
    rw [List.length_cons, core_run_succ, hmove, performAll_cons]
    cases ha : perform a (s.setPending []) with
    | next t =>
      have hnone : t.setPending [] = t := by
        rw [← State.setPending_pending s [], ← perform_pending ha, State.setPending_self]
      exact (ih t).trans (congrArg (performAll as) hnone)
    | fault r => rfl
    | refused r => rfl

/-- Settles O12: setting the host's list is the model's own update of `pending`. -/
theorem runPerformsAccessesInOrder : Obligations.RunPerformsAccessesInOrder :=
  core_run_setPending

/-! ### The register window -/

/-- The readable registers by their offsets; every other offset reads 0 (R56). -/
theorem readRegister_eq (offset : Nat) (s : State) :
    readRegister offset s = if offset = 0x08 then s.din else if offset = 0x10 then s.dout
      else if offset = 0x18 then status s else if offset = 0x20 then s.fcmd else 0 := by
  unfold readRegister
  split
  · rfl
  · rfl
  · rfl
  · rfl
  · next hdin hdout hstatus hfcmd => rw [if_neg hdin, if_neg hdout, if_neg hstatus, if_neg hfcmd]

/-- Settles O14: the four moves one by one, and the last clause by what an access that moves can be. -/
theorem registerMap : Obligations.RegisterMap := by
  refine fun s => ⟨fun c => perform_write_cmd c s, fun v => perform_write_din v s,
    fun offset v h h8 hcmd hdin => perform_write_ignored (by omega) h h8 v s, fun offset h h8 => ?_,
    fun a t h hreset hcmd => ?_⟩
  · rw [perform_read h h8, readRegister_eq]
    rfl
  · rcases perform_cases h with ⟨_, -, rfl⟩ | ⟨c, ha, -⟩ | ⟨v, -, rfl⟩ | ⟨_, _, -, -, rfl⟩ | ⟨ha, -⟩
    · exact ⟨rfl, rfl, rfl, rfl, rfl, rfl, rfl, rfl⟩
    · exact absurd ha (hcmd c)
    · exact ⟨rfl, rfl, rfl, rfl, rfl, rfl, rfl, rfl⟩
    · exact ⟨rfl, rfl, rfl, rfl, rfl, rfl, rfl, rfl⟩
    · exact absurd ha hreset

/-- An access in the window of another width or alignment has no move, whatever it would do (R57). -/
theorem checkedAccess_bad {offset width : Nat} (h : offset < 0x40) (hbad : width ≠ 64 ∨ offset % 8 ≠ 0)
    (a : Host.Outcome State Fault Refusal) :
    checkedAccess offset width a = .fault (.hostBadAccess (Config.hostBadAccess offset width)) := by
  rw [checkedAccess, if_neg (by omega), if_neg (by omega)]

/-- An access beyond the window reaches no register of the block (R56, R61). -/
theorem checkedAccess_outside {offset : Nat} (h : 0x40 ≤ offset) (width : Nat)
    (a : Host.Outcome State Fault Refusal) : checkedAccess offset width a = .fault .outsideWindow :=
  if_pos h

/-- Settles O15: a read and a write pass the same check before their move. -/
theorem badAccessesHaveNoMove : Obligations.BadAccessesHaveNoMove :=
  fun _ _ width _ => ⟨fun h hbad => ⟨checkedAccess_bad h hbad _, checkedAccess_bad h hbad _⟩,
    fun h => ⟨checkedAccess_outside h width _, checkedAccess_outside h width _⟩⟩

/-- Two accesses in host order. -/
theorem performAll_pair (a b : HostAction) (s : State) :
    performAll [a, b] s = andThen (perform a s) (perform b) := by
  rw [performAll_cons]
  congr 1
  funext t
  rw [performAll_cons]
  cases perform b t <;> rfl

/-- What the host has read shows in no register (R19). -/
theorem readRegister_observe (offset : Nat) (v : Word) (s : State) :
    readRegister offset (s.observe v) = readRegister offset s := by
  rw [readRegister_eq, readRegister_eq]
  rfl

/-- Settles O16: the second access of a pair starts from the state the first one left, in which the same DIN is written
again, or nothing, or the register reads the same; a CMD write executes there once more. -/
theorem accessesAreIdempotentButCmd : Obligations.AccessesAreIdempotentButCmd := by
  refine fun s => ⟨fun v => ?_, fun offset h h8 hcmd v hdin => ?_, fun offset h h8 => ⟨readRegister offset s, ?_⟩,
    fun c => ?_⟩
  · rw [performAll_pair, perform_write_din, andThen_next, perform_write_din]
    rfl
  · have hignored := perform_write_ignored (by omega) h h8 v s
    rw [performAll_pair, hignored, andThen_next, hignored]
  · rw [performAll_pair, perform_read h h8, andThen_next, perform_read h h8, readRegister_observe]
    simp [State.observe]
  · rw [performAll_pair, perform_write_cmd]
    cases executeWord c s with
    | next t => exact perform_write_cmd c t
    | fault r => rfl
    | refused r => rfl

/-! ### Lanes and bytes -/

/-- Bit `b` of a 64-bit value is bit `b mod 8` of its byte `b / 8` (R54). -/
theorem getLsbD_byteOf (w : Word) (b : Nat) : (byteOf w (b / 8)).getLsbD (b % 8) = w.getLsbD b := by
  rw [byteOf, BitVec.getLsbD_extractLsb', decide_eq_true (Nat.mod_lt b (by decide)), Bool.true_and, Nat.div_add_mod]

/-- The bytes of the packed lanes are the bytes of the buffer, index by index (R51, R52). -/
theorem laneByte_pack (S : Memory) {i : Nat} (hi : i < 200) : laneByte (pack S) i = S.read i := by
  rw [laneByte, byteOf_pack _ _ _ _ (Nat.mod_lt i (by decide))]
  congr 1
  show 8 * (i / 8 % 5 + 5 * (i / 8 / 5 % 5)) + i % 8 = i
  omega

/-- Byte `j` of lane `[x,y]` in an unpacked buffer (R52). -/
theorem read_unpack_lane (A : Lanes) (x y : Fin 5) {j : Nat} (hj : j < 8) :
    (unpack A).read (8 * (x.val + 5 * y.val) + j) = byteOf (A.lane x y) j := by
  rw [read_unpack A (by omega), laneByte_lane A x y hj]

/-- Packing loses nothing of a canonical buffer (R52). -/
theorem unpack_pack {S : Memory} (hS : S.wf) : unpack (pack S) = S :=
  Memory.ext (wf_unpack _) hS fun _ hi => (read_unpack _ hi).trans (laneByte_pack S hi)

/-- Unpacking loses nothing of the lanes (R52). -/
theorem pack_unpack (A : Lanes) : pack (unpack A) = A :=
  Lanes.ext_lane fun x y => word_ext_bytes fun j hj =>
    (byteOf_pack _ x y j hj).trans (read_unpack_lane A x y hj)

/-- Settles O51: the two byte rules, from which each of the two inverses follows byte by byte. -/
theorem packAndUnpackAreInverse : Obligations.PackAndUnpackAreInverse :=
  ⟨byteOf_pack, fun A x y _ hj => read_unpack_lane A x y hj, fun _ hS => unpack_pack hS, pack_unpack, fun _ => rfl⟩

/-- Writing a byte at `i` writes byte `i mod 8` of lane number `i / 8` and no other byte of a lane (R55). -/
theorem byteOf_pack_write {S : Memory} (hS : S.wf) (i : Nat) (v : Byte) (x y : Fin 5) {j : Nat} (hj : j < 8) :
    byteOf ((pack (S.write i v)).lane x y) j =
      if x.val + 5 * y.val = i / 8 ∧ j = i % 8 then v else byteOf ((pack S).lane x y) j := by
  have hplace : 8 * (x.val + 5 * y.val) + j = i ↔ x.val + 5 * y.val = i / 8 ∧ j = i % 8 := by omega
  rw [byteOf_pack _ x y j hj, byteOf_pack _ x y j hj, Memory.read_write hS]
  simp only [hplace]

/-- Settles O52: another lane keeps all its bytes, and in lane `i / 8` a bit outside the written byte lies in a byte
that is kept. -/
theorem byteWriteStaysInItsLane : Obligations.ByteWriteStaysInItsLane := by
  refine fun S i v x y hS _ => ⟨fun hlane => word_ext_bytes fun j hj => ?_, fun hlane => ⟨?_, fun b hb hbyte => ?_⟩⟩
  · rw [byteOf_pack_write hS i v x y hj, if_neg fun h => hlane h.1]
  · exact (byteOf_pack_write hS i v x y (Nat.mod_lt i (by decide))).trans (if_pos ⟨hlane, rfl⟩)
  · rw [← getLsbD_byteOf, ← getLsbD_byteOf ((pack S).lane x y), byteOf_pack_write hS i v x y (by omega),
      if_neg fun h => hbyte h.2]

/-! ### A word absorbed onto a lane -/

/-- Absorbing up to the window's end at most: the bytes go onto the bytes from the cursor on, and the buffer so made is
permuted exactly when they fill the window (R130). -/
theorem absorbBytes_within_window {s : State} (hw : Window s) (hm : s.S.wf) (bs : List Byte)
    (hfit : s.offset.toNat + bs.length ≤ s.rate.toNat) :
    ∃ (t : State) (u : Memory), absorbBytes bs s = .next t ∧
      (∀ i, u.read i =
        if s.offset.toNat ≤ i ∧ i < s.offset.toNat + bs.length then s.S.read i ^^^ bs.getD (i - s.offset.toNat) 0
        else s.S.read i) ∧
      (s.offset.toNat + bs.length < s.rate.toNat → t.S = u) ∧
      (s.offset.toNat + bs.length = s.rate.toNat → t.S = permute u) := by
  rcases Nat.lt_or_eq_of_le hfit with hbelow | hend
  · obtain ⟨u, -, ht, hread⟩ := absorbBytes_below hw hm bs hbelow
    exact ⟨_, u, ht, hread, fun _ => rfl, fun hend => absurd hend (Nat.ne_of_lt hbelow)⟩
  · obtain ⟨u, -, ht, hread⟩ := absorbBytes_to_end hw hm bs hend
    exact ⟨_, u, ht, hread, fun hbelow => absurd hend (Nat.ne_of_lt hbelow), fun _ => rfl⟩

/-- Byte `k` of the bytes ABSORB takes from DIN (R54). -/
theorem getD_bytesOf (w : Word) {n k : Nat} (hk : k < n) : (bytesOf w n).getD k 0 = byteOf w k := by
  simp [bytesOf, hk]

/-- A byte of the XOR is the XOR of the bytes. -/
theorem byteOf_xor (v w : Word) (k : Nat) : byteOf (v ^^^ w) k = byteOf v k ^^^ byteOf w k := by
  apply BitVec.eq_of_getLsbD_eq
  intro i hi
  simp [byteOf, hi]

/-- Eight bytes of `w` XORed onto the bytes from a lane's first byte on are `w` XORed onto that lane (R51, R54). -/
theorem pack_lane_of_xor_bytes {S u : Memory} {w : Word} {x y : Fin 5} {o : Nat} (ho : o = 8 * (x.val + 5 * y.val))
    (hread : ∀ i, u.read i = if o ≤ i ∧ i < o + 8 then S.read i ^^^ (bytesOf w 8).getD (i - o) 0 else S.read i)
    (x' y' : Fin 5) :
    (pack u).lane x' y' = if x' = x ∧ y' = y then (pack S).lane x' y' ^^^ w else (pack S).lane x' y' := by
  refine word_ext_bytes fun j hj => ?_
  rw [byteOf_pack u x' y' j hj, hread]
  by_cases hlane : x' = x ∧ y' = y
  · obtain ⟨rfl, rfl⟩ := hlane
    have hbyte : 8 * (x'.val + 5 * y'.val) + j - o = j := by omega
    rw [if_pos (by omega), if_pos ⟨rfl, rfl⟩, hbyte, getD_bytesOf w hj, byteOf_xor, byteOf_pack S x' y' j hj]
  · have hnumber : x'.val + 5 * y'.val ≠ x.val + 5 * y.val := fun h => hlane ⟨by omega, by omega⟩
    rw [if_neg (by omega), if_neg hlane, byteOf_pack S x' y' j hj]

/-- Settles O49: offset and rate are multiples of 8, so the eight bytes fit into the window. -/
theorem alignedWordXorsOntoItsLane : Obligations.AlignedWordXorsOntoItsLane := by
  intro s x y hinv hmode hrate ho
  have hw : Window s := inv_window hinv (.inl hmode)
  have hfit : s.offset.toNat + 8 ≤ s.rate.toNat := by
    obtain ⟨-, -, hlt⟩ := hw
    omega
  have hexec : exec (.absorb 8) s = absorbBytes (bytesOf s.din 8) s :=
    exec_permitted (by simp [hmode]) ⟨le_refl 8, hmode⟩
  obtain ⟨t, u, ht, hread, hbelow, hend⟩ := absorbBytes_within_window hw hinv.1 (bytesOf s.din 8) hfit
  exact ⟨t, u, hexec.trans ht, pack_lane_of_xor_bytes ho hread, hbelow, hend⟩

end Sys2Proof.Machine
end

section
/-! PROOFS of the family 30_encoding: the decoder against the encoder and against the opcode table (R70 to R77,
R82), the assembler's commands (R80), and what the pseudo-instructions perform (R81, R143). -/

namespace Sys2Proof

open Laws.RowMatch Machine Claims

/-! ### Decoding and encoding -/

/-- The word of a command has its row's opcode, with zero wherever the row demands it (R70 to R72). -/
theorem decode_encode (i : Instr) : decode (encode i) = .ok i := by
  rw [decode_ok]
  cases i with
  | init rate delim => exact ⟨by simp [encode], .inl (by simp [encode])⟩
  | absorb n => exact ⟨by simp [encode], .inr (.inl (by simp [encode]))⟩
  | pad => exact ⟨by simp [encode], .inr (.inr (.inl (by simp [encode])))⟩
  | squeeze n => exact ⟨by simp [encode], .inr (.inr (.inr (.inl (by simp [encode]))))⟩
  | final n => exact ⟨by simp [encode], .inr (.inr (.inr (.inr (by simp [encode]))))⟩

/-- Settles O1: each field of a command's word is the field it was made of. -/
theorem decodeOfEncode : Obligations.DecodeOfEncode := decode_encode

/-- Settles O2: the fields of a decoded word hold all its bits, and the row fixes those its operands do not. -/
theorem encodeOfDecode : Obligations.EncodeOfDecode := fun _ _ => encode_of_decode

/-- Settles O6: each word evaluates, in the decoder, to its command or to the reason it is illegal. -/
theorem encodingVectorsDecode : Obligations.EncodingVectorsDecode :=
  ⟨rfl, rfl, rfl, rfl, rfl, rfl, rfl, rfl, rfl⟩

/-! ### The words of each command -/

theorem decode_eq_init {c : Word} {rate delim : Byte} : decode c = .ok (.init rate delim) ↔
    (opField c = 1 ∧ cntField c = 0 ∧ resField c = 0) ∧ rate = rateField c ∧ delim = delimField c := by
  rw [decode_ok]
  simp only [Instr.init.injEq, reduceCtorEq, and_false, or_false]
  tauto

theorem decode_eq_absorb {c : Word} {n : BitVec 4} : decode c = .ok (.absorb n) ↔
    (opField c = 2 ∧ rateField c = 0 ∧ delimField c = 0 ∧ resField c = 0) ∧ n = cntField c := by
  rw [decode_ok]
  simp only [Instr.absorb.injEq, reduceCtorEq, and_false, false_or, or_false]
  tauto

theorem decode_eq_squeeze {c : Word} {n : BitVec 4} : decode c = .ok (.squeeze n) ↔
    (opField c = 4 ∧ rateField c = 0 ∧ delimField c = 0 ∧ resField c = 0) ∧ n = cntField c := by
  rw [decode_ok]
  simp only [Instr.squeeze.injEq, reduceCtorEq, and_false, false_or, or_false]
  tauto

theorem decode_eq_final {c : Word} {n : BitVec 4} : decode c = .ok (.final n) ↔
    (opField c = 5 ∧ rateField c = 0 ∧ delimField c = 0 ∧ resField c = 0) ∧ n = cntField c := by
  rw [decode_ok]
  simp only [Instr.final.injEq, reduceCtorEq, and_false, false_or]
  tauto

/-- PAD has no operand, so it has one word. -/
theorem decode_eq_pad {c : Word} : decode c = .ok .pad ↔ c = 3 :=
  ⟨fun h => (encode_of_decode h).symm, fun h => h ▸ decode_encode .pad⟩

/-! ### Masks and matches (R73) -/

/-- Bits that a mask covers are kept under it. -/
theorem extractLsb'_and_mask {m : Word} {lo w : Nat} (hm : m.extractLsb' lo w = BitVec.allOnes w) (c : Word) :
    (c &&& m).extractLsb' lo w = c.extractLsb' lo w := by
  rw [BitVec.extractLsb'_and, hm, BitVec.and_allOnes]

/-- Two values that agree under a mask agree in the bits it covers. -/
theorem extractLsb'_eq_of_masked {c d m : Word} {lo w : Nat} (h : c &&& m = d &&& m)
    (hm : m.extractLsb' lo w = BitVec.allOnes w) : c.extractLsb' lo w = d.extractLsb' lo w := by
  rw [← extractLsb'_and_mask hm c, h, extractLsb'_and_mask hm]

/-- INIT's mask covers OP, CNT and RES. -/
theorem and_initMask_eq {c : Word} {op : BitVec 4} : c &&& 0xFFFFFFFFFF0000FF = op.zeroExtend 64 ↔
    opField c = op ∧ cntField c = 0 ∧ resField c = 0 := by
  rw [← commandWord_and_wide 0 0 op]
  constructor
  · intro h
    exact ⟨(extractLsb'_eq_of_masked h rfl).trans (opField_commandWord 0 0 0 op),
      (extractLsb'_eq_of_masked h rfl).trans (cntField_commandWord 0 0 0 op),
      (extractLsb'_eq_of_masked h rfl).trans (resField_commandWord 0 0 0 op)⟩
  · rintro ⟨hop, hcnt, hres⟩
    rw [← commandWord_fields hres, hop, hcnt, commandWord_and_wide, commandWord_and_wide]

/-- The mask of ABSORB, SQUEEZE and FINAL covers all fields but CNT. -/
theorem and_countMask_eq {c : Word} {op : BitVec 4} : c &&& 0xFFFFFFFFFFFFFF0F = op.zeroExtend 64 ↔
    opField c = op ∧ rateField c = 0 ∧ delimField c = 0 ∧ resField c = 0 := by
  rw [← commandWord_and_count 0 op]
  constructor
  · intro h
    exact ⟨(extractLsb'_eq_of_masked h rfl).trans (opField_commandWord 0 0 0 op),
      (extractLsb'_eq_of_masked h rfl).trans (rateField_commandWord 0 0 0 op),
      (extractLsb'_eq_of_masked h rfl).trans (delimField_commandWord 0 0 0 op),
      (extractLsb'_eq_of_masked h rfl).trans (resField_commandWord 0 0 0 op)⟩
  · rintro ⟨hop, hrate, hdelim, hres⟩
    rw [← commandWord_fields hres, hop, hrate, hdelim, commandWord_and_count, commandWord_and_count]

/-- A value that meets a row has that row's opcode: every mask covers OP. -/
theorem opField_of_row {c : Word} {p : Word × Word} (hp : p ∈ rows) (h : c &&& p.1 = p.2) :
    opField c = opField p.2 := by
  have hmask : ∀ q ∈ rows, q.1.extractLsb' 0 4 = BitVec.allOnes 4 := by simp [rows]
  rw [← h]
  exact (extractLsb'_and_mask (hmask p hp) c).symm

/-- No value meets two rows: their opcodes differ (R72). -/
theorem rows_exclusive (c : Word) : rows.Pairwise fun p q => ¬ (c &&& p.1 = p.2 ∧ c &&& q.1 = q.2) := by
  have hops : rows.Pairwise fun p q => opField p.2 ≠ opField q.2 := by simp [rows, opField]
  exact hops.imp_of_mem fun hp hq hne h => hne ((opField_of_row hp h.1).symm.trans (opField_of_row hq h.2))

/-- Every command has its row in the table. -/
theorem row_mem_rows (i : Instr) : (rowMask i, rowValue i) ∈ rows := by
  cases i <;> simp [rows, rowMask, rowValue]

/-- Every command's word meets the command's row (R73). -/
theorem encode_meets_row (i : Instr) : encode i &&& rowMask i = rowValue i := by
  cases i with
  | init rate delim => exact Laws.RowMatch.init rate delim
  | absorb n => exact Laws.RowMatch.absorb n
  | pad => exact Laws.RowMatch.pad
  | squeeze n => exact Laws.RowMatch.squeeze n
  | final n => exact Laws.RowMatch.final n

/-! ### The illegal words (R77) -/

/-- RATE and DELIM together are bits 23:8. -/
theorem rateDelim_eq_zero {c : Word} : c.extractLsb' 8 16 = 0 ↔ rateField c = 0 ∧ delimField c = 0 := by
  have hjoin : delimField c ++ rateField c = c.extractLsb' 8 16 :=
    BitVec.extractLsb'_append_extractLsb'_eq_extractLsb' (by rfl)
  constructor
  · intro h
    rw [h] at hjoin
    exact ⟨BitVec.extractLsb'_append_eq_right.symm.trans (congrArg (BitVec.extractLsb' 0 8) hjoin),
      BitVec.extractLsb'_append_eq_left.symm.trans (congrArg (BitVec.extractLsb' 8 8) hjoin)⟩
  · rintro ⟨hrate, hdelim⟩
    rw [← hjoin, hrate, hdelim]
    rfl

/-- R77's three cases in the decoder's fields. -/
theorem illegalWord_iff {c : Word} : IllegalWord c ↔ opField c = 0 ∨ 6 ≤ opField c ∨ resField c ≠ 0 ∨
    ((opField c = 1 ∨ opField c = 3) ∧ cntField c ≠ 0) ∨
    (opField c ≠ 1 ∧ ¬ (rateField c = 0 ∧ delimField c = 0)) := by
  rw [← rateDelim_eq_zero]
  rfl

/-- The opcodes that R77 (a) calls illegal are those of no row. -/
theorem illegalOpcode_iff (o : BitVec 4) : o = 0 ∨ 6 ≤ o ↔ ¬ (o = 1 ∨ o = 2 ∨ o = 3 ∨ o = 4 ∨ o = 5) := by
  revert o
  decide

/-- A value decodes to a command exactly when R77 does not call it illegal: for each opcode, the fields that its row
demands zero are those that R77 (b) and (c) demand zero. -/
theorem exists_decode_ok {c : Word} : (∃ i, decode c = .ok i) ↔ ¬ IllegalWord c := by
  simp only [decode_ok, illegalWord_iff]
  by_cases hop : opField c = 1 ∨ opField c = 2 ∨ opField c = 3 ∨ opField c = 4 ∨ opField c = 5
  · rcases hop with ho | ho | ho | ho | ho <;> simp [ho]
  · refine iff_of_false ?_ (not_not.mpr (or_assoc.mp (.inl ((illegalOpcode_iff _).mpr hop))))
    rintro ⟨i, -, hrow⟩
    exact hop (by tauto)

/-- Every value decodes to a command or is rejected. -/
theorem exists_decode_error {c : Word} : (∃ e, decode c = .error e) ↔ IllegalWord c := by
  rw [← not_iff_not, ← exists_decode_ok]
  cases decode c <;> simp

/-- The operands of a decoded command are the value's fields (R71). -/
theorem decode_operands {c : Word} {i : Instr} (h : decode c = .ok i) :
    i = .init (c.extractLsb' 8 8) (c.extractLsb' 16 8) ∨ i = .absorb (c.extractLsb' 4 4) ∨ i = .pad ∨
      i = .squeeze (c.extractLsb' 4 4) ∨ i = .final (c.extractLsb' 4 4) := by
  obtain ⟨-, ⟨-, -, hi⟩ | ⟨-, -, -, hi⟩ | ⟨-, -, -, -, hi⟩ | ⟨-, -, -, hi⟩ | ⟨-, -, -, hi⟩⟩ := decode_ok.mp h
  · exact .inl hi
  · exact .inr (.inl hi)
  · exact .inr (.inr (.inl hi))
  · exact .inr (.inr (.inr (.inl hi)))
  · exact .inr (.inr (.inr (.inr hi)))

/-- Settles O4: what the decoder rejects goes to ILLEGAL_COMMAND, the one check of an illegal word. -/
theorem illegalWordsRaiseIllegalCommand : Obligations.IllegalWordsRaiseIllegalCommand := by
  refine fun c => ⟨exists_decode_error, exists_decode_ok.mpr, fun s hc hm => ?_⟩
  obtain ⟨e, he⟩ := exists_decode_error.mpr hc
  exact (executeWord_error he s).trans (illegalCommand_faults hm)

/-- Settles O5: R77 decides whether the value decodes, and a function has one answer. -/
theorem decodingIsTotal : Obligations.DecodingIsTotal := by
  intro c
  by_cases hc : IllegalWord c
  · exact .inl ⟨hc, fun i hi => exists_decode_ok.mp ⟨i, hi⟩ hc⟩
  · obtain ⟨i, hi⟩ := exists_decode_ok.mpr hc
    exact .inr ⟨hc, i, ⟨hi, decode_operands hi⟩, fun j hj => Except.ok.inj (hj.1.symm.trans hi)⟩

/-! ### Operand values (R74, R75) -/

/-- INIT with a rate outside 1..199 fails its first check. -/
theorem executeWord_bad_rate {c : Word} {s : State} {rate delim : Byte} (hm : s.mode ≠ .fault)
    (hd : decode c = .ok (.init rate delim)) (hr : rate.toNat = 0 ∨ 200 ≤ rate.toNat) :
    executeWord c s = .next (faulted .badRate c s) := by
  have hillegal : legalRate rate = false := decide_eq_false (by omega)
  rw [executeWord_ok hd, exec_faults hm (f := .badRate) (by simp [checksOf, firstFailing_cons, hillegal]),
    encode_of_decode hd]
  rfl

/-- A counted command with a count above 8 fails its first check. -/
theorem executeWord_bad_count {c : Word} {s : State} {n : BitVec 4} {i : Instr} (hm : s.mode ≠ .fault)
    (hd : decode c = .ok i) (hi : i ∈ [.absorb n, .squeeze n, .final n]) (hn : 8 < n.toNat) :
    executeWord c s = .next (faulted .badCount c s) := by
  have hillegal : legalCount n = false := decide_eq_false (by omega)
  have hfirst : firstFailing (checksOf i s) = some .badCount := by
    simp only [List.mem_cons, List.not_mem_nil, or_false] at hi
    rcases hi with rfl | rfl | rfl <;> simp [checksOf, firstFailing_cons, hillegal]
  rw [executeWord_ok hd, exec_faults hm hfirst, encode_of_decode hd]
  rfl

/-- Settles O3: a row's mask covers just the fields the row fixes, so meeting it is what the decoder asks. -/
theorem matchAndMaskSpellTheCommand : Obligations.MatchAndMaskSpellTheCommand := by
  refine fun c => ⟨fun rate delim => ?_, fun n => ?_, ?_, fun n => ?_, fun n => ?_, rows_exclusive c, fun hnone => ?_,
    fun s rate delim => executeWord_bad_rate, fun s n i => executeWord_bad_count⟩
  · exact decode_eq_init.trans (and_congr_left' (and_initMask_eq (op := 1)).symm)
  · exact decode_eq_absorb.trans (and_congr_left' (and_countMask_eq (op := 2)).symm)
  · rw [decode_eq_pad, show (0xFFFFFFFFFFFFFFFF : Word) = BitVec.allOnes 64 from rfl, BitVec.and_allOnes]
  · exact decode_eq_squeeze.trans (and_congr_left' (and_countMask_eq (op := 4)).symm)
  · exact decode_eq_final.trans (and_congr_left' (and_countMask_eq (op := 5)).symm)
  · by_contra hc
    obtain ⟨i, hi⟩ := exists_decode_ok.mpr hc
    exact hnone _ (row_mem_rows i) (encode_of_decode hi ▸ encode_meets_row i)

/-! ### Command words as shifts -/

/-- A command word is its fields, each shifted to its place (R70). -/
theorem commandWord_eq_shifts (delim rate : Byte) (cnt op : BitVec 4) :
    commandWord delim rate cnt op = rate.setWidth 64 <<< 8 ||| delim.setWidth 64 <<< 16 |||
      cnt.setWidth 64 <<< 4 ||| op.setWidth 64 := by
  apply BitVec.eq_of_getLsbD_eq
  intro i hi
  rw [getLsbD_commandWord]
  simp only [BitVec.getLsbD_or, BitVec.getLsbD_shiftLeft, BitVec.getLsbD_setWidth, hi]
  by_cases h4 : i < 4
  · simp [h4, show i < 8 by omega, show i < 16 by omega]
  by_cases h8 : i < 8
  · simp [h4, h8, show i < 16 by omega, show i - 4 < 64 by omega, BitVec.getLsbD_of_ge op i (by omega)]
  have hop : op.getLsbD i = false := BitVec.getLsbD_of_ge op i (by omega)
  have hcnt : cnt.getLsbD (i - 4) = false := BitVec.getLsbD_of_ge cnt (i - 4) (by omega)
  by_cases h16 : i < 16
  · simp [h4, h8, h16, hop, hcnt, show i - 8 < 64 by omega]
  · have hrate : rate.getLsbD (i - 8) = false := BitVec.getLsbD_of_ge rate (i - 8) (by omega)
    simp [h4, h8, h16, hop, hcnt, hrate, show i - 16 < 64 by omega]

/-- The CMD value of INIT in R80's table. -/
theorem encode_init_ofNat {rate delim : Nat} (hr : rate ≤ 255) (hd : delim ≤ 255) :
    encode (.init (BitVec.ofNat 8 rate) (BitVec.ofNat 8 delim)) =
      BitVec.ofNat 64 rate <<< 8 ||| BitVec.ofNat 64 delim <<< 16 ||| 0x1 := by
  rw [encode, commandWord_eq_shifts, BitVec.setWidth_ofNat_of_le_of_lt (by decide) (by omega),
    BitVec.setWidth_ofNat_of_le_of_lt (by decide) (by omega)]
  simp

/-- The word of a counted command in R80's table. -/
theorem commandWord_ofNat {n : Nat} (hn : n ≤ 8) (op : BitVec 4) :
    commandWord 0 0 (BitVec.ofNat 4 n) op = BitVec.ofNat 64 n <<< 4 ||| op.setWidth 64 := by
  rw [commandWord_eq_shifts, BitVec.setWidth_ofNat_of_le_of_lt (by decide) (by omega)]
  simp

/-! ### Assembler lines -/

theorem assembleInit_legal {rate delim : Nat} (h : 1 ≤ rate ∧ rate ≤ 199 ∧ delim ≤ 255) :
    assembleInit rate delim =
      some [.write 0x00 64 (BitVec.ofNat 64 rate <<< 8 ||| BitVec.ofNat 64 delim <<< 16 ||| 0x1)] := by
  rw [assembleInit, if_pos h, issue, encode_init_ofNat (by omega) h.2.2]
  rfl

/-- A counted command line assembles to a CMD write, if each count's word is as R80's table has it. -/
theorem assembleCount_legal {f : BitVec 4 → Instr} {op : BitVec 4} (hf : ∀ n, encode (f n) = commandWord 0 0 n op)
    {n : Nat} (hn : n ≤ 8) :
    assembleCount f n = some [.write 0x00 64 (BitVec.ofNat 64 n <<< 4 ||| op.setWidth 64)] := by
  rw [assembleCount, if_pos hn, issue, hf, commandWord_ofNat hn]
  rfl

theorem assembleCount_refused (f : BitVec 4 → Instr) {n : Nat} (hn : 8 < n) : assembleCount f n = none :=
  if_neg (by omega)

/-- Settles O7: the assembler's operand checks are R80's, and a word is its fields shifted to their places. -/
theorem assemblerEncodings : Obligations.AssemblerEncodings :=
  ⟨fun _ _ => ⟨assembleInit_legal, fun h => if_neg h⟩,
    fun _ => ⟨fun hn => ⟨assembleCount_legal (op := 2) (fun _ => rfl) hn,
        assembleCount_legal (op := 4) (fun _ => rfl) hn, assembleCount_legal (op := 5) (fun _ => rfl) hn⟩,
      fun hn => ⟨assembleCount_refused _ hn, assembleCount_refused _ hn, assembleCount_refused _ hn⟩⟩,
    rfl, fun _ => ⟨rfl, rfl⟩, rfl, rfl, rfl, rfl⟩

/-- Settles O8: each listed level's rate is `(1600 - 2 * bits) / 8`, and only the listed levels assemble. -/
theorem presetExpansions : Obligations.PresetExpansions :=
  ⟨rfl, rfl, rfl, rfl, rfl, rfl, rfl, rfl, rfl, rfl, fun _ h => ⟨if_neg h, if_neg h⟩, fun _ h => if_neg h⟩

end Sys2Proof

namespace Sys2Proof.Machine

open Claims

/-! ### Commands issued by the host -/

/-- A CMD write of a permitted command's word has the command's effect. -/
theorem perform_writeCmd {i : Instr} {s : State} (hm : s.mode ≠ .fault) (hp : Permitted i s) :
    perform (writeCmd (encode i)) s = effectOf i s := by
  rw [writeCmd, perform_write_cmd, executeWord_ok (decode_encode i), exec_permitted hm hp]

/-- `RDOUT` hands the host DOUT (R80). -/
theorem perform_readDout (s : State) : perform readDout s = .next (s.observe s.dout) :=
  perform_read (by decide) rfl s

/-- A count the assembler accepts is the count of the word's four bits. -/
theorem toNat_count {n : Nat} (hn : n ≤ 8) : (BitVec.ofNat 4 n).toNat = n := by
  rw [BitVec.toNat_ofNat, Nat.mod_eq_of_lt (by omega)]

/-! ### Absorbing in chunks -/

theorem advance_setDin (v : Word) (s : State) : advance (s.setDin v) = (advance s).setDin v := by
  by_cases h : s.offset + 1 = s.rate <;> simp only [advance, State.setDin, h, if_true, if_false]

/-- AbsorbByte takes no byte from DIN. -/
theorem absorbBytes_setDin {bs : List Byte} {s t : State} (h : absorbBytes bs s = .next t) (v : Word) :
    absorbBytes bs (s.setDin v) = .next (t.setDin v) := by
  induction bs generalizing s with
  | nil =>
    obtain rfl := Host.Outcome.next.inj h
    rfl
  | cons b bs ih =>
    obtain ⟨u, hu, ht⟩ := andThen_eq_next.mp h
    obtain ⟨ho, rfl⟩ := absorbByte_next hu
    rw [absorbBytes_cons, absorbByte_eq (s := s.setDin v) ho, andThen_next]
    exact (congrArg (absorbBytes bs) (advance_setDin v _)).trans (ih ht)

/-- The bytes that ABSORB takes from DIN are those that WDIN packed into it (R54, R81). -/
theorem bytesOf_wordOfBytes {bs : List Byte} (hl : bs.length ≤ 8) : bytesOf (wordOfBytes bs) bs.length = bs := by
  refine List.ext_getElem (by simp [bytesOf]) fun k hk hb => ?_
  simp only [bytesOf, List.getElem_map, List.getElem_range]
  rw [byteOf_wordOfBytes hl (by omega), if_pos hb]
  exact List.getD_eq_getElem bs 0 hb

/-- A chunk's two actions absorb its bytes; DIN is left with them. -/
theorem performAll_absorbChunk {bs : List Byte} (hl : bs.length ≤ 8) {s t : State} (hm : s.mode = .absorbing)
    (h : absorbBytes bs s = .next t) :
    performAll (absorbChunk bs) s = .next (t.setDin (wordOfBytes bs)) := by
  have hcount := toNat_count hl
  have hp : Permitted (.absorb (BitVec.ofNat 4 bs.length)) (s.setDin (wordOfBytes bs)) := ⟨by omega, hm⟩
  rw [absorbChunk, writeDin, performAll_cons, perform_write_din, andThen_next, issue, performAll_cons,
    perform_writeCmd (by simp [hm]) hp, effectOf, hcount, State.setDin_din, bytesOf_wordOfBytes hl,
    absorbBytes_setDin h]
  rfl

/-- Chunk after chunk the host's actions absorb the chunks' bytes in order, and only DIN tells the cut (R81, R140). -/
theorem performAll_absorbChunks {cs : List (List Byte)} (hl : ∀ x ∈ cs, x.length ≤ 8) {s t : State}
    (hm : s.mode = .absorbing) (h : absorbBytes cs.flatten s = .next t) :
    ∃ v, performAll (absorbChunks cs) s = .next (t.setDin v) := by
  induction cs generalizing s t with
  | nil =>
    obtain rfl := Host.Outcome.next.inj h
    exact ⟨s.din, rfl⟩
  | cons c cs ih =>
    rw [List.flatten_cons, absorbBytes_append] at h
    obtain ⟨u, hu, ht⟩ := andThen_eq_next.mp h
    have humode : u.mode = .absorbing := by rw [absorbBytes_frame hu]; exact hm
    obtain ⟨v, hv⟩ := ih (fun x hx => hl x (.tail _ hx)) (s := u.setDin (wordOfBytes c)) humode
      (absorbBytes_setDin ht _)
    refine ⟨v, ?_⟩
    rw [absorbChunks, List.flatMap_cons, performAll_append,
      performAll_absorbChunk (hl c (.head _)) hm hu, andThen_next]
    exact hv

/-- Cutting into chunks loses no byte when the fuel suffices. -/
theorem flatten_chunksOf8 {fuel : Nat} {bs : List Byte} (h : bs.length ≤ fuel) : (chunksOf8 fuel bs).flatten = bs := by
  induction fuel generalizing bs with
  | zero => exact (List.length_eq_zero_iff.mp (by omega)).symm
  | succ fuel ih =>
    rw [chunksOf8]
    split
    · next hnil => exact hnil.symm
    · next hne =>
      have hpos := List.length_pos_iff.mpr hne
      rw [List.flatten_cons, ih (by rw [List.length_drop]; omega), List.take_append_drop]

theorem length_of_mem_chunksOf8 {fuel : Nat} {bs x : List Byte} (h : x ∈ chunksOf8 fuel bs) : x.length ≤ 8 := by
  induction fuel generalizing bs with
  | zero => exact absurd h List.not_mem_nil
  | succ fuel ih =>
    rw [chunksOf8] at h
    split at h
    · exact absurd h List.not_mem_nil
    · rcases List.mem_cons.mp h with rfl | h
      · exact List.length_take_le 8 bs
      · exact ih h

/-- Settles O48: ABSORBB's chunks hold its bytes in order, and chunk by chunk they are absorbed. -/
theorem absorbbAbsorbsItsBytes : Obligations.AbsorbbAbsorbsItsBytes := by
  intro s bs hinv hm
  obtain ⟨u, hu, -⟩ := absorbBytes_completes (inv_window hinv (.inl hm)) hinv.1 bs
  obtain ⟨v, hv⟩ := performAll_absorbChunks (cs := chunksOf8 bs.length bs)
    (fun _ => length_of_mem_chunksOf8) hm ((congrArg (absorbBytes · s) (flatten_chunksOf8 le_rfl)).trans hu)
  exact ⟨_, _, u, rfl, hv, hu, rfl⟩

/-! ### Squeezing with a read after each command -/

/-- SqueezeByte depends on nothing that a squeezing command or a read of DOUT writes beside the buffer and the
cursor. -/
theorem squeezeBytes_of_output {s : State} (hw : Window s) (n : Nat) (d w : Word) {bs : List Byte} {v : State}
    (h : squeezeBytes n ((s.setDout d).observe w) = .next (bs, v)) : ∃ u, squeezeBytes n s = .next (bs, u) := by
  rw [squeezeBytes_eq (s := (s.setDout d).observe w) hw] at h
  obtain ⟨rfl, -⟩ := Prod.mk.inj (Host.Outcome.next.inj h)
  exact ⟨cursorAfter n s, squeezeBytes_eq hw n⟩

/-- Squeezing keeps the mode and what the host has read. -/
theorem squeezeBytes_keeps {n : Nat} {s u : State} {bs : List Byte} (h : squeezeBytes n s = .next (bs, u)) :
    u.mode = s.mode ∧ u.observed = s.observed := by
  have hframe : u = { s with S := u.S, offset := u.offset } := (squeezeBytes_frame h).2
  rw [hframe]
  exact ⟨rfl, rfl⟩

/-- `SQUEEZE n` with its read of DOUT. -/
theorem performAll_squeezeRead {s u : State} {n : Nat} {bs : List Byte} (hn : n ≤ 8) (hm : s.mode = .squeezing)
    (h : squeezeBytes n s = .next (bs, u)) :
    performAll (squeezeRead n) s = .next ((u.setDout (wordOfBytes bs)).observe (wordOfBytes bs)) := by
  have hcount := toNat_count hn
  have hp : Permitted (.squeeze (BitVec.ofNat 4 n)) s := ⟨by omega, hm⟩
  rw [squeezeRead, issue, List.singleton_append, performAll_pair, perform_writeCmd (by simp [hm]) hp, effectOf, hcount,
    squeezeToDout, h]
  exact perform_readDout _

/-- `FINAL n` from Squeezing, with its read of DOUT. -/
theorem performAll_finalRead {s u : State} {n : Nat} {bs : List Byte} (hn : n ≤ 8) (hm : s.mode = .squeezing)
    (h : squeezeBytes n s = .next (bs, u)) :
    performAll (finalRead n) s =
      .next (((u.setDout (wordOfBytes bs)).setMode .consumed).observe (wordOfBytes bs)) := by
  have hcount := toNat_count hn
  have hp : Permitted (.final (BitVec.ofNat 4 n)) s := ⟨by omega, .inr hm⟩
  rw [finalRead, issue, List.singleton_append, performAll_pair, perform_writeCmd (by simp [hm]) hp, effectOf, hcount,
    if_neg (by simp [hm]), andThen_next, squeezeToDout, h]
  exact perform_readDout _

/-- The host takes from one read of DOUT the bytes that were squeezed into it (R54). -/
theorem outputBytes_cons {n : Nat} {bs : List Byte} (hn : n ≤ 8) (hl : bs.length = n) (ns : List Nat)
    (ws : List Word) : outputBytes (n :: ns) (wordOfBytes bs :: ws) = bs ++ outputBytes ns ws := by
  subst hl
  exact congrArg (· ++ outputBytes ns ws) (bytesOf_wordOfBytes hn)

theorem squeezeProgram_cons (n : Nat) (ns : List Nat) (last : Option Nat) :
    squeezeProgram (n :: ns) last = squeezeRead n ++ squeezeProgram ns last := by
  simp only [squeezeProgram, List.flatMap_cons, List.append_assoc]

/-- A run of SQUEEZE commands, with a FINAL last or not, completes, and its reads of DOUT hand the host the bytes that
as many calls of SqueezeByte yield (R136, R137, R141). -/
theorem performAll_squeezeProgram {ns : List Nat} {last : Option Nat} (hn : ∀ n ∈ ns ++ last.toList, n ≤ 8)
    {s : State} (hw : Window s) (hm : s.S.wf) (hmode : s.mode = .squeezing) :
    ∃ t ws v, performAll (squeezeProgram ns last) s = .next t ∧ t.observed = s.observed ++ ws ∧
      (last.isSome → t.mode = .consumed) ∧
      squeezeBytes (ns ++ last.toList).sum s = .next (outputBytes (ns ++ last.toList) ws, v) := by
  induction ns generalizing s with
  | nil =>
    cases last with
    | none => exact ⟨s, [], s, rfl, by simp, by simp, rfl⟩
    | some n =>
      have hn8 : n ≤ 8 := hn n (.head _)
      obtain ⟨bs, u, hu, -⟩ := squeezeBytes_completes hw hm n
      obtain ⟨-, hobsu⟩ := squeezeBytes_keeps hu
      refine ⟨_, [wordOfBytes bs], u, performAll_finalRead hn8 hmode hu, congrArg (· ++ _) hobsu, fun _ => rfl, ?_⟩
      rw [Option.toList_some, List.nil_append, outputBytes_cons hn8 (squeezeBytes_frame hu).1, List.sum_singleton, hu]
      simp only [outputBytes, List.append_nil]
  | cons n ns ih =>
    have hn8 : n ≤ 8 := hn n (.head _)
    obtain ⟨bs, u, hu, hwu, hmu, -⟩ := squeezeBytes_completes hw hm n
    obtain ⟨hmodeu, hobsu⟩ := squeezeBytes_keeps hu
    obtain ⟨t, ws, v, ht, hobs, hlast, hv⟩ := ih (fun k hk => hn k (.tail _ hk))
      (s := (u.setDout (wordOfBytes bs)).observe (wordOfBytes bs)) hwu hmu (hmodeu.trans hmode)
    obtain ⟨v', hv'⟩ := squeezeBytes_of_output hwu _ _ _ hv
    refine ⟨t, wordOfBytes bs :: ws, v', ?_, ?_, hlast, ?_⟩
    · rw [squeezeProgram_cons, performAll_append, performAll_squeezeRead hn8 hmode hu, andThen_next, ht]
    · rw [hobs, State.observe_observed, State.setDout_observed, hobsu, List.append_assoc, List.singleton_append]
    · rw [List.cons_append, List.sum_cons, squeezeBytes_add, hu, andThen_next, hv',
        outputBytes_cons hn8 (squeezeBytes_frame hu).1]
      rfl

/-- The bytes of a run whose reads are known. -/
theorem runOutput_eq {ns : List Nat} {last : Option Nat} {s t : State} {ws : List Word}
    (h : t.observed = s.observed ++ ws) : runOutput ns last s t = outputBytes (ns ++ last.toList) ws := by
  rw [runOutput, h, List.drop_left]

/-! ### DIGEST -/

/-- The counts of DIGEST's SQUEEZE commands (R143). -/
def digestCounts (L : Nat) : List Nat := List.replicate (digestCommands L - 1) 8

/-- The count of DIGEST's FINAL command (R143). -/
def digestLast (L : Nat) : Nat := L - 8 * (digestCommands L - 1)

/-- DIGEST is PAD and then a run of SQUEEZE 8 with a FINAL last (R143). -/
theorem digestActions_eq (L : Nat) :
    digestActions L = issue .pad ++ squeezeProgram (digestCounts L) (some (digestLast L)) := by
  simp only [digestActions, squeezeProgram, digestCounts, digestLast, List.flatMap_replicate, List.append_assoc]

theorem digestLast_zero : digestLast 0 = 0 := rfl

/-- FINAL takes at least one of the bytes asked for, and no more than it can (R143). -/
theorem digestLast_bounds {L : Nat} (hL : L ≠ 0) : 1 ≤ digestLast L ∧ digestLast L ≤ 8 := by
  unfold digestLast digestCommands
  omega

theorem digestLast_le (L : Nat) : digestLast L ≤ 8 := by
  unfold digestLast digestCommands
  omega

/-- DIGEST's counts add up to the digest's length (R143). -/
theorem digestCounts_sum (L : Nat) : (digestCounts L ++ (some (digestLast L)).toList).sum = L := by
  rw [List.sum_append, digestCounts, List.sum_replicate, Option.toList_some, List.sum_singleton, digestLast,
    digestCommands, smul_eq_mul]
  omega

/-- DIGEST's counts are ones that SQUEEZE and FINAL take. -/
theorem digestCounts_le {L n : Nat} (h : n ∈ digestCounts L ++ (some (digestLast L)).toList) : n ≤ 8 := by
  rcases List.mem_append.mp h with h | h
  · exact (List.eq_of_mem_replicate h).le
  · rw [List.mem_singleton.mp h]
    exact digestLast_le L

/-- `FINAL n` with its read of DOUT, as R80's table has them. -/
theorem finalRead_words {n : Nat} (hn : n ≤ 8) :
    finalRead n = [.write 0x00 64 (BitVec.ofNat 64 n <<< 4 ||| 0x5), .read 0x10 64] := by
  rw [finalRead, issue, encode, commandWord_ofNat hn]
  rfl

/-- DIGEST's actions as R143 writes them. -/
theorem digestActions_words (L : Nat) : digestActions L = [.write 0x00 64 0x3]
      ++ (List.replicate (digestCommands L - 1) [.write 0x00 64 0x84, .read 0x10 64]).flatten
      ++ [.write 0x00 64 (BitVec.ofNat 64 (digestLast L) <<< 4 ||| 0x5), .read 0x10 64] := by
  rw [← finalRead_words (digestLast_le L)]
  rfl

/-- Settles O47: PAD, then a run of counts that add up to `L`, whose reads hand over what SqueezeByte yields. -/
theorem digestYieldsOneSqueeze : Obligations.DigestYieldsOneSqueeze := by
  rintro L _ rfl
  refine ⟨?_, congrArg some (digestActions_words L), fun s hinv hm => ?_⟩
  · split
    · next hL => exact hL ▸ digestLast_zero
    · next hL => exact digestLast_bounds hL
  · have hw : Window s := inv_window hinv (.inl hm)
    have hf : s.mode ≠ .fault := by simp [hm]
    obtain ⟨t, ws, v, ht, hobs, hlast, hv⟩ :=
      performAll_squeezeProgram (fun _ => digestCounts_le (L := L)) (window_padded hw) (wf_permute _) rfl
    rw [digestCounts_sum] at hv
    refine ⟨_, _, v, t, (exec_permitted (i := .pad) hf hm).trans (padAndTransition_eq hw), hv, ?_, hlast rfl,
      runOutput_eq hobs⟩
    rw [digestActions_eq, issue, List.singleton_append, performAll_cons, perform_writeCmd (i := .pad) hf hm, effectOf,
      padAndTransition_eq hw, andThen_next, ht]

end Sys2Proof.Machine
end

section
/-! PROOFS of the family 40_permutation: the five steps lane by lane and as bijections (R102 to R107, R109), and the
two tables against their recurrences (R104, R108). -/

namespace Sys2Proof.Machine

/-! ### Sums of words -/

theorem xor_swap_left (v w z : Word) : v ^^^ (w ^^^ z) = w ^^^ (v ^^^ z) := by
  rw [← BitVec.xor_assoc, BitVec.xor_comm v w, BitVec.xor_assoc]

/-- A word added twice is not added. -/
theorem xor_cancel_left (v w : Word) : v ^^^ (v ^^^ w) = w := by
  rw [← BitVec.xor_assoc, BitVec.xor_self, BitVec.zero_xor]

/-- Of a word added to each of five, one is left in their sum. -/
theorem xor_five_same (a b c d e w : Word) :
    a ^^^ w ^^^ (b ^^^ w) ^^^ (c ^^^ w) ^^^ (d ^^^ w) ^^^ (e ^^^ w) = a ^^^ b ^^^ c ^^^ d ^^^ e ^^^ w := by
  simp only [BitVec.xor_assoc, BitVec.xor_comm, xor_swap_left, xor_cancel_left]

/-! ### Rotation of words -/

/-- Where a rotation moves each bit (R12). -/
theorem getLsbD_rotl64 (v : Word) (n : Nat) {i : Nat} (hi : i < 64) :
    (rotl64 v n).getLsbD ((i + n) % 64) = v.getLsbD i := rotationMovesBits.1 v n i hi

/-- A rotated word is fixed by where its bits go (R12). -/
theorem eq_rotl64_of_bits {v w : Word} {n : Nat} (h : ∀ i, i < 64 → w.getLsbD ((i + n) % 64) = v.getLsbD i) :
    w = rotl64 v n := by
  apply BitVec.eq_of_getLsbD_eq
  intro j hj
  have hi : (j + 63 * n) % 64 < 64 := Nat.mod_lt _ (by omega)
  have hback : ((j + 63 * n) % 64 + n) % 64 = j := by omega
  have hbits := (h _ hi).trans (getLsbD_rotl64 v n hi).symm
  rwa [hback] at hbits

theorem rotl64_zero (n : Nat) : rotl64 0 n = 0 := (eq_rotl64_of_bits fun _ _ => by simp).symm

theorem rotl64_allOnes (n : Nat) : rotl64 (BitVec.allOnes 64) n = BitVec.allOnes 64 :=
  (eq_rotl64_of_bits fun i hi => by simp [hi, Nat.mod_lt, -BitVec.reduceAllOnes]).symm

theorem rotl64_xor (v w : Word) (n : Nat) : rotl64 (v ^^^ w) n = rotl64 v n ^^^ rotl64 w n :=
  (eq_rotl64_of_bits fun i hi => by
    rw [BitVec.getLsbD_xor, BitVec.getLsbD_xor, getLsbD_rotl64 v n hi, getLsbD_rotl64 w n hi]).symm

/-- Rotations add up. -/
theorem rotl64_rotl64 (v : Word) (m n : Nat) : rotl64 (rotl64 v m) n = rotl64 v (m + n) :=
  eq_rotl64_of_bits fun i hi => by
    have hpos : (i + (m + n)) % 64 = ((i + m) % 64 + n) % 64 := by omega
    rw [hpos, getLsbD_rotl64 _ n (Nat.mod_lt _ (by omega)), getLsbD_rotl64 v m hi]

/-- The amount counts modulo 64 only (R12). -/
theorem rotl64_of_mod_eq_zero (v : Word) {n : Nat} (h : n % 64 = 0) : rotl64 v n = v :=
  (eq_rotl64_of_bits fun i hi => by rw [show (i + n) % 64 = i by omega]).symm

theorem rotl64_injective (n : Nat) : Function.Injective (rotl64 · n) :=
  Function.LeftInverse.injective (g := (rotl64 · (63 * n))) fun v =>
    (rotl64_rotl64 v n _).trans (rotl64_of_mod_eq_zero v (by omega))

/-! ### Bijections of the lane states -/

/-- There are finitely many lane states. -/
theorem finite_lanes : Finite Lanes :=
  Finite.of_injective (β := Fin 5 → Fin 5 → Word) Lanes.lane fun _ _ h =>
    Lanes.ext_lane fun x y => congrFun (congrFun h x) y

/-- Of the lane states, a map that merges no two reaches all. -/
theorem bijective_of_injective {f : Lanes → Lanes} (h : Function.Injective f) : Function.Bijective f :=
  have := finite_lanes
  Finite.injective_iff_bijective.mp h

/-! ### theta

theta adds to the lanes of each column a word that depends on the column parities alone, and it takes the parities
`C` to `C[x] ^ C[x-1] ^ rotl64(C[x+1], 1)`. So it is injective if this linear map of the parities is. That map is a
sum of three commuting ones, so its square has the same form with shift and rotation doubled; after six squarings
the rotation is by 64 and only the shifts of five columns are left, for which an inverse can be written down. -/

/-- `C[x] ^ C[x-k] ^ rotl64(C[x+k], n)`. -/
def mixColumns (k : Fin 5) (n : Nat) (C : Fin 5 → Word) (x : Fin 5) : Word :=
  C x ^^^ (C (x - k) ^^^ rotl64 (C (x + k)) n)

/-- theta's effect on the column parities: of the five equal words added to a column one is left (R102). -/
theorem columnParity_theta (A : Lanes) : columnParity (theta A) = mixColumns 1 1 (columnParity A) := by
  funext x
  rw [columnParity]
  simp only [theta_lane]
  exact xor_five_same ..

/-- Mixing twice doubles shift and rotation: the mixed terms occur twice. -/
theorem mixColumns_mixColumns (k : Fin 5) (n : Nat) (C : Fin 5 → Word) :
    mixColumns k n (mixColumns k n C) = mixColumns (k + k) (n + n) C := by
  funext x
  simp only [mixColumns, rotl64_xor, rotl64_rotl64, sub_add_cancel, add_sub_cancel_right, sub_sub, add_assoc]
  simp only [BitVec.xor_assoc, xor_swap_left, xor_cancel_left]

theorem mixColumns_injective_of_double {k : Fin 5} {n : Nat}
    (h : Function.Injective (mixColumns (k + k) (n + n))) : Function.Injective (mixColumns k n) :=
  Function.Injective.of_comp (f := mixColumns k n) fun C C' hC => h <| by
    simpa only [Function.comp_apply, mixColumns_mixColumns] using hC

/-- Rotations by 64 and by 128 change nothing, and without a rotation the shifts alone undo each other: modulo 2 and
`x^5 - 1`, `(1 + x + x^4) * (1 + x^2 + x^3)` is 1. -/
theorem mixColumns_leftInverse : Function.LeftInverse (mixColumns 3 128) (mixColumns 4 64) := by
  intro C
  funext x
  have hshift : x - 4 = x + 1 ∧ x - 3 = x + 2 ∧ x + 2 - 4 = x + 3 ∧ x + 2 + 4 = x + 1 ∧ x + 3 - 4 = x + 4 ∧
      x + 3 + 4 = x + 2 := by decide +revert
  have h64 : ∀ v, rotl64 v 64 = v := fun v => rotl64_of_mod_eq_zero v rfl
  have h128 : ∀ v, rotl64 v 128 = v := fun v => rotl64_of_mod_eq_zero v rfl
  simp only [mixColumns, h64, h128, hshift, BitVec.xor_assoc, BitVec.xor_comm, xor_swap_left, xor_cancel_left,
    BitVec.xor_self, BitVec.xor_zero]

/-- The mix of the parities in theta loses nothing: the shifts 1, 2, 4, 3, 1, 2, 4 double one another modulo 5. -/
theorem mixColumns_injective : Function.Injective (mixColumns 1 1) := by
  have h64 : Function.Injective (mixColumns 4 64) := mixColumns_leftInverse.injective
  have h32 : Function.Injective (mixColumns 2 32) := mixColumns_injective_of_double h64
  have h16 : Function.Injective (mixColumns 1 16) := mixColumns_injective_of_double h32
  have h8 : Function.Injective (mixColumns 3 8) := mixColumns_injective_of_double h16
  have h4 : Function.Injective (mixColumns 4 4) := mixColumns_injective_of_double h8
  have h2 : Function.Injective (mixColumns 2 2) := mixColumns_injective_of_double h4
  exact mixColumns_injective_of_double h2

theorem theta_injective : Function.Injective theta := by
  intro A B h
  have hparity : columnParity A = columnParity B :=
    mixColumns_injective (by rw [← columnParity_theta, ← columnParity_theta, h])
  apply Lanes.ext_lane
  intro x y
  have hlane := congrArg (Lanes.lane · x y) h
  simpa only [theta_lane, hparity, BitVec.xor_left_inj] using hlane

/-- theta leaves a state whose columns all have even parity (R102). -/
theorem theta_of_even {A : Lanes} (h : ∀ x, columnParity A x = 0) : theta A = A :=
  Lanes.ext_lane fun x y => by
    rw [theta_lane, h, h, rotl64_zero]
    simp

/-! ### rho and pi -/

theorem rho_injective : Function.Injective rho := by
  intro A B h
  apply Lanes.ext_lane
  intro x y
  have hlane := congrArg (Lanes.lane · x y) h
  simp only [rho_lane] at hlane
  exact rotl64_injective _ hlane

/-- pi moves the lane at (x,y) to (y,2x+3y) (R105). -/
theorem pi_lane_moved (A : Lanes) (x y : Fin 5) : (pi A).lane y (2 * x + 3 * y) = A.lane x y := by
  have hsource : ∀ x y : Fin 5, y + 3 * (2 * x + 3 * y) = x := by decide
  rw [pi_lane, hsource]

theorem pi_injective : Function.Injective pi := fun A B h =>
  Lanes.ext_lane fun x y => by rw [← pi_lane_moved A, ← pi_lane_moved B, h]

/-! ### chi -/

/-- The inverse of chi, row by row. -/
def chiInverse (B : Lanes) : Lanes := Lanes.ofFn fun x y =>
  B.lane x y ^^^ (~~~ B.lane (x + 1) y &&& (B.lane (x + 2) y ^^^ (~~~ B.lane (x + 3) y &&& B.lane (x + 4) y)))

/-- chi undone on one bit of each of a row's five lanes. -/
theorem chi_bit_undone : ∀ a b c d e : Bool,
    ((a ^^ (!b && c)) ^^
      (!(b ^^ (!c && d)) && ((c ^^ (!d && e)) ^^ (!(d ^^ (!e && a)) && (e ^^ (!a && b)))))) = a := by
  decide

theorem chiInverse_chi : Function.LeftInverse chiInverse chi := by
  intro A
  apply Lanes.ext_lane
  intro x y
  have hshift : x + 1 + 1 = x + 2 ∧ x + 1 + 2 = x + 3 ∧ x + 2 + 1 = x + 3 ∧ x + 2 + 2 = x + 4 ∧ x + 3 + 1 = x + 4 ∧
      x + 3 + 2 = x ∧ x + 4 + 1 = x ∧ x + 4 + 2 = x + 1 := by decide +revert
  apply BitVec.eq_of_getElem_eq
  intro i hi
  simp only [chiInverse, Lanes.lane_ofFn, chi_lane, hshift, BitVec.getElem_xor, BitVec.getElem_and,
    BitVec.getElem_not]
  exact chi_bit_undone ..

/-- A row of equal lanes, all zeros or all ones, is left by chi (R106). -/
theorem chi_lane_of_constant {A : Lanes} {y : Fin 5}
    (h : (∀ x, A.lane x y = 0) ∨ (∀ x, A.lane x y = BitVec.allOnes 64)) (x : Fin 5) :
    (chi A).lane x y = A.lane x y := by
  rcases h with h | h <;> simp [chi_lane, h]

/-! ### iota -/

/-- Adding the round constant twice adds nothing. -/
theorem iota_involutive (ir : Nat) : Function.Involutive (iota · ir) := by
  intro A
  apply Lanes.ext_lane
  intro x y
  by_cases h : x = 0 ∧ y = 0 <;> simp [iota_lane, h]

/-- No round constant is zero (R108). -/
theorem roundConstant_ne_zero : ∀ ir, ir < 24 → roundConstant ir ≠ 0 := by decide

/-! ### The permutation -/

theorem keccakRound_injective (ir : Nat) : Function.Injective (keccakRound · ir) := fun _ _ h =>
  theta_injective <| rho_injective <| pi_injective <| chiInverse_chi.injective <| (iota_involutive ir).injective h

/-- Any rounds one after another merge no two states. -/
theorem foldl_keccakRound_injective (irs : List Nat) : Function.Injective (irs.foldl keccakRound) := by
  induction irs with
  | nil => exact fun _ _ h => h
  | cons ir irs ih => exact ih.comp (keccakRound_injective ir)

theorem keccakF_injective : Function.Injective keccakF := foldl_keccakRound_injective _

/-- Settles O53: each step merges no two states, so neither do the rounds in a row; and the states are finitely
many. -/
theorem keccakIsBijective : Obligations.KeccakIsBijective :=
  ⟨bijective_of_injective theta_injective, bijective_of_injective rho_injective, bijective_of_injective pi_injective,
    bijective_of_injective chiInverse_chi.injective, fun ir => (iota_involutive ir).bijective,
    bijective_of_injective keccakF_injective, fun _ _ => keccakF_injective.ne⟩

/-- Settles O55: each step's own rule, at the states that its corner case names. -/
theorem stepCornerCases : Obligations.StepCornerCases := by
  refine ⟨fun _ => theta_of_even, fun A => ?_, fun A x y h => ?_, pi_lane_moved, by decide,
    fun _ _ => chi_lane_of_constant, fun A ir hir => ?_, fun A ir x y hxy => ?_⟩
  · exact (rho_lane A 0 0).trans (rotationMovesBits.2 _)
  · rw [rho_lane]
    rcases h with h | h
    · rw [h, rotl64_zero]
    · rw [h, rotl64_allOnes]
  · rw [iota_lane, if_pos ⟨rfl, rfl⟩]
    intro h
    exact roundConstant_ne_zero ir hir (by simpa using h)
  · rw [iota_lane, if_neg fun h => hxy (Prod.ext h.1 h.2)]

/-! ### The two tables -/

/-- R104's recurrence visits each position with its table entry. -/
theorem rhoOffset_rhoWalk :
    ∀ t, t < 24 → rhoOffset (mod5 (rhoWalk t).1) (mod5 (rhoWalk t).2) = rhoTriangular t := by decide

/-- The seven bits of a round constant that the LFSR gives (R108). -/
theorem roundConstant_lfsr_bit :
    ∀ ir, ir < 24 → ∀ j, j < 7 → (roundConstant ir).getLsbD (2 ^ j - 1) = rcBit (j + 7 * ir) := by decide +kernel

/-- Outside the positions `2^j - 1` a round constant has no bit set (R108). -/
theorem roundConstant_other_bit : ∀ ir, ir < 24 → ∀ b, b < 64 → b ∉ [0, 1, 3, 7, 15, 31, 63] →
    (roundConstant ir).getLsbD b = false := by decide

/-- Settles O56: the tables are finite, and each is compared with its recurrence entry by entry. -/
theorem tablesFollowTheirRecurrences : Obligations.TablesFollowTheirRecurrences :=
  ⟨rfl, rhoOffset_rhoWalk, roundConstant_lfsr_bit, roundConstant_other_bit⟩

end Sys2Proof.Machine
end

section
/-! PROOFS of the family 41_sponge: the invariants and completion (R33, R207), the modes (R138, R139), the sponge
primitives and the commands (R130 to R137), the permutation counts (R142, R144), the laws of splitting (R140, R141),
and the refinement of the rules' pseudocode. -/

namespace Sys2Proof.Machine

open Claims

/-! ### The invariants are kept -/

/-- Outside Fault a sound state has no fault recorded (R30, R33 (c)). -/
theorem inv_no_fault {s : State} (h : Inv s) (hm : s.mode ≠ .fault) : s.fcode = .none ∧ s.fcmd = 0 := by
  obtain ⟨-, -, -, -, hnofault⟩ := h
  exact hnofault hm

/-- A permitted command's effect keeps a sound state sound: it leaves a window and one of the three modes of a
computation, with the fault registers as they were. -/
theorem effectOf_keeps_inv {i : Instr} {s t : State} (h : Inv s) (hm : s.mode ≠ .fault) (hp : Permitted i s)
    (he : effectOf i s = .next t) : Inv t := by
  obtain ⟨hfcode, hfcmd⟩ := inv_no_fault h hm
  obtain ⟨u, hu, hw, hwf⟩ := effectOf_completes h hp
  obtain rfl := Host.Outcome.next.inj (hu.symm.trans he)
  obtain ⟨hmode, -, hcode, hcmd, -, -⟩ := effectOf_frame hp he
  refine inv_of_window hw hwf ?_ ?_ (hcode.trans hfcode) (hcmd.trans hfcmd) <;>
    (rw [hmode]; cases i <;> simp [modeAfter])

/-- A CMD write keeps a sound state sound. -/
theorem executeWord_keeps_inv {c : Word} {s t : State} (h : Inv s) (hx : executeWord c s = .next t) : Inv t := by
  rcases executeWord_outcome hx with ⟨-, rfl⟩ | ⟨hm, f, hf, rfl⟩ | ⟨hm, -, i, -, hp, he⟩
  · exact h
  · exact inv_enterFault h hm hf c
  · exact effectOf_keeps_inv h hm hp he

/-- Every host action keeps a sound state sound (R33). -/
theorem perform_keeps_inv {a : HostAction} {s t : State} (h : Inv s) (hx : perform a s = .next t) : Inv t := by
  rcases perform_cases hx with ⟨_, -, rfl⟩ | ⟨c, -, hc⟩ | ⟨v, -, rfl⟩ | ⟨_, _, -, -, rfl⟩ | ⟨-, rfl⟩
  · exact h
  · exact executeWord_keeps_inv h hc
  · exact h
  · exact h
  · exact resetMeetsTheInvariants.1

/-- A host action that enters Fault is a CMD write, and fault entry keeps the computation's parameters (R33 (c)). -/
theorem perform_into_fault_keeps {a : HostAction} {s t : State} (hx : perform a s = .next t) (hm : s.mode ≠ .fault)
    (ht : t.mode = .fault) : t.rate = s.rate ∧ t.offset = s.offset ∧ t.delim = s.delim := by
  rcases perform_cases hx with ⟨_, -, rfl⟩ | ⟨c, -, hc⟩ | ⟨v, -, rfl⟩ | ⟨_, _, -, -, rfl⟩ | ⟨-, rfl⟩
  · exact absurd ht hm
  · rcases executeWord_outcome hc with ⟨hf, -⟩ | ⟨-, f, -, rfl⟩ | ⟨-, hne, -⟩
    · exact absurd hf hm
    · exact ⟨rfl, rfl, rfl⟩
    · exact absurd ht hne
  · exact absurd ht hm
  · exact absurd ht hm
  · exact absurd ht (by simp)

/-- Settles O22: a step keeps the state or performs one host action, and the invariants do not read the host's list. -/
theorem stepKeepsTheInvariants : Obligations.StepKeepsTheInvariants := by
  intro s t h hstep
  cases hp : s.pending with
  | nil =>
    obtain rfl := Host.Outcome.next.inj ((step_of_no_access hp).symm.trans hstep)
    exact ⟨h, fun hm ht => absurd ht hm⟩
  | cons a rest =>
    have hx : perform a (s.setPending rest) = .next t := (step_of_access hp).symm.trans hstep
    exact ⟨perform_keeps_inv (s := s.setPending rest) h hx,
      fun hm ht => perform_into_fault_keeps (s := s.setPending rest) hx hm ht⟩

/-! ### Completion and its bounds -/

/-- A permitted command completes in the mode of its kind, with no fault recorded (R138, R207). -/
theorem exec_permitted_completes {i : Instr} {s : State} (h : Inv s) (hm : s.mode ≠ .fault) (hp : Permitted i s) :
    ∃ t, exec i s = .next t ∧ t.mode = modeAfter i ∧ t.fcode = .none := by
  obtain ⟨t, he, -⟩ := effectOf_completes h hp
  obtain ⟨hmode, -, hfcode, -⟩ := effectOf_frame hp he
  exact ⟨t, (exec_permitted hm hp).trans he, hmode, hfcode.trans (inv_no_fault h hm).1⟩

/-- Every command completes in a sound state (R207). -/
theorem exec_completes {s : State} (h : Inv s) (i : Instr) : ∃ t, exec i s = .next t := by
  by_cases hm : s.mode = .fault
  · exact ⟨s, exec_ignored hm i⟩
  cases hf : firstFailing (checksOf i s) with
  | none =>
    obtain ⟨t, ht, -⟩ := exec_permitted_completes h hm ((firstFailing_checksOf hm).mp hf)
    exact ⟨t, ht⟩
  | some f => exact ⟨_, exec_faults hm hf⟩

/-- Every CMD value completes in a sound state (R207). -/
theorem executeWord_completes {s : State} (h : Inv s) (c : Word) : ∃ t, executeWord c s = .next t := by
  cases hd : decode c with
  | ok i =>
    obtain ⟨t, ht⟩ := exec_completes h i
    exact ⟨t, (executeWord_ok hd s).trans ht⟩
  | error e =>
    by_cases hm : s.mode = .fault
    · exact ⟨s, (executeWord_error hd s).trans (illegalCommand_ignored hm)⟩
    · exact ⟨_, (executeWord_error hd s).trans (illegalCommand_faults hm)⟩

/-- A command that goes ahead performs the permutations of R144's table. -/
theorem permuteCount_of_next {i : Instr} {s t : State} (h : exec i s = .next t) (ht : t.mode ≠ .fault) :
    permuteCount i s = permutesOf i s := by
  simp only [permuteCount, h, if_neg ht]

/-- A command that faults or is ignored performs no permutation (R144). -/
theorem permuteCount_of_fault {i : Instr} {s t : State} (h : exec i s = .next t) (ht : t.mode = .fault) :
    permuteCount i s = 0 := by
  simp only [permuteCount, h, if_pos ht]

/-- In a window, `n` cursor moves come to the window's end at most `n` times. -/
theorem window_div_le {s : State} (hw : Window s) (n : Nat) : (s.offset.toNat + n) / s.rate.toNat ≤ n := by
  obtain ⟨hr, -, ho⟩ := hw
  have hmul : n * 1 ≤ n * s.rate.toNat := Nat.mul_le_mul_left n hr
  refine Nat.lt_succ_iff.mp ((Nat.div_lt_iff_lt_mul hr).mpr ?_)
  rw [Nat.succ_mul]
  omega

/-- A permitted command performs at most 9 permutations: one per byte moved, and one of padding (R207). -/
theorem permutesOf_le {i : Instr} {s : State} (h : Inv s) (hp : Permitted i s) : permutesOf i s ≤ 9 := by
  cases i with
  | init rate delim => exact Nat.zero_le 9
  | absorb n => exact ((window_div_le (inv_window h (.inl hp.2)) n.toNat).trans hp.1).trans (by decide)
  | pad => exact (by decide : 1 ≤ 9)
  | squeeze n => exact ((window_div_le (inv_window h (.inr hp.2)) n.toNat).trans hp.1).trans (by decide)
  | final n =>
    obtain ⟨hn, hmode⟩ := hp
    have hsqueeze := window_div_le (inv_window h hmode) n.toNat
    have hpadded := Nat.div_le_self n.toNat s.rate.toNat
    rw [permutesOf]
    split <;> omega

/-- A command performs at most 9 permutations (R207). -/
theorem permuteCount_le {s : State} (h : Inv s) (i : Instr) : permuteCount i s ≤ 9 := by
  obtain ⟨t, ht⟩ := exec_completes h i
  by_cases hf : t.mode = .fault
  · exact (permuteCount_of_fault ht hf).trans_le (Nat.zero_le 9)
  · obtain ⟨-, hp, -⟩ := exec_outside_fault ht hf
    exact (permuteCount_of_next ht hf).trans_le (permutesOf_le h hp)

/-- At rate 1 every byte fills the window, and the padding permutes once more (R207). -/
theorem permuteCount_final_rate_one {s : State} (h : Inv s) (hm : s.mode = .absorbing) (hr : s.rate = 1) :
    permuteCount (.final 8) s = 9 := by
  obtain ⟨t, ht, hmode, -⟩ := exec_permitted_completes h (i := .final 8) (by simp [hm]) ⟨le_refl 8, .inl hm⟩
  rw [permuteCount_of_next ht (by simp [hmode, modeAfter]), permutesOf, if_pos hm, hr]
  rfl

/-- Settles O24: a permitted command's effect completes in its window, and its count of permutations is R144's. -/
theorem everyCommandCompletes : Obligations.EveryCommandCompletes := by
  refine ⟨fun c s h => executeWord_completes h c, fun i s h => ⟨exec_completes h i, permuteCount_le h i⟩,
    fun n i s t hi _ hx ht => ?_, fun s h hm hr => permuteCount_final_rate_one h hm hr⟩
  obtain ⟨-, hp, -⟩ := exec_outside_fault hx ht
  simp only [List.mem_cons, List.not_mem_nil, or_false] at hi
  rcases hi with rfl | rfl | rfl <;> exact hp.1

/-! ### The mode table -/

/-- A cell of R138's table for legal operands: the fault of the first check that fails, or the mode after the
command. -/
theorem fsmCell_eq {i : Instr} {s : State} (hm : s.mode ≠ .fault) (hi : i.wellFormed = true) :
    fsmCell s.mode i = match firstFailing (checksOf i s) with
      | some f => .error f
      | none => .ok (modeAfter i) := by
  cases i with
  | init rate delim =>
    have hr : legalRate rate = true := hi
    cases hs : s.mode <;> simp_all [fsmCell, checksOf, firstFailing_cons, modeAfter]
  | absorb n =>
    have hn : legalCount n = true := hi
    cases hs : s.mode <;> simp_all [fsmCell, checksOf, firstFailing_cons, modeAfter]
  | pad => cases hs : s.mode <;> simp_all [fsmCell, checksOf, firstFailing_cons, modeAfter]
  | squeeze n =>
    have hn : legalCount n = true := hi
    cases hs : s.mode <;> simp_all [fsmCell, checksOf, firstFailing_cons, modeAfter]
  | final n =>
    have hn : legalCount n = true := hi
    cases hs : s.mode <;> simp_all [fsmCell, checksOf, firstFailing_cons, modeAfter]

/-- In Fault R138's table has nothing happen. -/
theorem fsmCell_fault (i : Instr) : fsmCell .fault i = .ok .fault := by cases i <;> rfl

/-- INIT with a rate outside 1..199 raises BAD_RATE (R75, R133). -/
theorem exec_bad_rate {s : State} {rate delim : Byte} (hm : s.mode ≠ .fault)
    (hr : rate.toNat = 0 ∨ 200 ≤ rate.toNat) :
    exec (.init rate delim) s = .next (faulted .badRate (encode (.init rate delim)) s) :=
  (executeWord_ok (decode_encode _) s).symm.trans (executeWord_bad_rate hm (decode_encode _) hr)

/-- A counted command with a count above 8 raises BAD_COUNT (R74). -/
theorem exec_bad_count {s : State} {n : BitVec 4} {i : Instr} (hm : s.mode ≠ .fault) (hn : 8 < n.toNat)
    (hi : i ∈ [.absorb n, .squeeze n, .final n]) : exec i s = .next (faulted .badCount (encode i) s) :=
  (executeWord_ok (decode_encode i) s).symm.trans (executeWord_bad_count hm (decode_encode i) hi hn)

/-- An illegal word outside Fault raises ILLEGAL_COMMAND (R77). -/
theorem executeWord_illegal {c : Word} {s : State} (hm : s.mode ≠ .fault) (hc : IllegalWord c) :
    executeWord c s = .next (faulted .illegalCommand c s) :=
  (illegalWordsRaiseIllegalCommand c).2.2 s hc hm

/-- Settles O31: a command with legal operands does what its first failing check says, and R138's cell is that check. -/
theorem modeTransitions : Obligations.ModeTransitions := by
  refine fun s => ⟨fun i h hi => ?_, fun rate delim hm hr => exec_bad_rate hm (by omega),
    fun n i hm hn hi => exec_bad_count hm hn hi, fun c hm hc => executeWord_illegal hm hc⟩
  by_cases hm : s.mode = .fault
  · rw [hm, fsmCell_fault]
    exact ⟨s, exec_ignored hm i, hm, rfl⟩
  rw [fsmCell_eq hm hi]
  cases hf : firstFailing (checksOf i s) with
  | some f => exact exec_faults hm hf
  | none =>
    obtain ⟨t, ht, hmode, hcode⟩ := exec_permitted_completes h hm ((firstFailing_checksOf hm).mp hf)
    exact ⟨t, ht, hmode, (if_neg hm).mpr hcode⟩

/-- A permitted command after which the mode is Absorbing is INIT, unless the mode was Absorbing before it (R138). -/
theorem init_of_modeAfter_absorbing {i : Instr} {s : State} (hp : Permitted i s) (hs : s.mode ≠ .absorbing)
    (hi : modeAfter i = .absorbing) : ∃ rate delim, i = .init rate delim := by
  cases i with
  | init rate delim => exact ⟨rate, delim, rfl⟩
  | absorb n => exact absurd hp.2 hs
  | pad => simp [modeAfter] at hi
  | squeeze n => simp [modeAfter] at hi
  | final n => simp [modeAfter] at hi

/-- A host action that reaches Absorbing is a CMD write of an INIT command's word (R139). -/
theorem perform_into_absorbing {a : HostAction} {s t : State} (hx : perform a s = .next t) (hs : s.mode ≠ .absorbing)
    (ht : t.mode = .absorbing) : ∃ rate delim, a = .write 0x00 64 (encode (.init rate delim)) := by
  rcases perform_cases hx with ⟨_, -, rfl⟩ | ⟨c, rfl, hc⟩ | ⟨v, -, rfl⟩ | ⟨_, _, -, -, rfl⟩ | ⟨-, rfl⟩
  · exact absurd ht hs
  · rcases executeWord_outcome hc with ⟨-, rfl⟩ | ⟨-, f, -, rfl⟩ | ⟨-, -, i, hd, hp, he⟩
    · exact absurd ht hs
    · exact absurd ht (by simp)
    · obtain ⟨hmode, -⟩ := effectOf_frame hp he
      obtain ⟨rate, delim, rfl⟩ := init_of_modeAfter_absorbing hp hs (hmode.symm.trans ht)
      exact ⟨rate, delim, by rw [encode_of_decode hd]⟩
  · exact absurd ht hs
  · exact absurd ht hs
  · exact absurd ht (by simp)

/-- A host action that leaves Fault is reset: in Fault a CMD write is ignored (R139, R177). -/
theorem perform_out_of_fault {a : HostAction} {s t : State} (hx : perform a s = .next t) (hs : s.mode = .fault)
    (ht : t.mode ≠ .fault) : a = .reset := by
  rcases perform_cases hx with ⟨_, -, rfl⟩ | ⟨c, -, hc⟩ | ⟨v, -, rfl⟩ | ⟨_, _, -, -, rfl⟩ | ⟨ha, -⟩
  · exact absurd hs ht
  · rcases executeWord_outcome hc with ⟨-, rfl⟩ | ⟨hm, -⟩ | ⟨hm, -⟩
    · exact absurd hs ht
    · exact absurd hs hm
    · exact absurd hs hm
  · exact absurd hs ht
  · exact absurd hs ht
  · exact ha

/-- Settles O32: of the host's actions only CMD writes and reset change the mode, and INIT alone comes to Absorbing. -/
theorem onlyInitReachesAbsorbing : Obligations.OnlyInitReachesAbsorbing := by
  refine ⟨fun s t hx => ?_, fun a s t => perform_into_absorbing, fun a s t => perform_out_of_fault⟩
  obtain rfl := Host.Outcome.next.inj hx
  rfl

/-- Settles O33: INIT is permitted in every mode but Fault, its rate is its one check, and its word's must-be-zero
fields are the decoder's. -/
theorem initStartsAFreshComputation : Obligations.InitStartsAFreshComputation := by
  refine ⟨fun s rate delim hm h1 h199 => exec_permitted (i := .init rate delim) hm ⟨h1, h199⟩,
    fun i _ => Memory.read_nil i, fun s rate delim hm hr => exec_bad_rate hm hr, fun s c hm hop hzero => ?_,
    fun s rate delim hm => exec_ignored hm _⟩
  refine executeWord_illegal hm ?_
  rcases hzero with hres | hcnt
  · exact .inr (.inr (.inl hres))
  · exact .inr (.inr (.inr (.inl ⟨.inl hop, hcnt⟩)))

end Sys2Proof.Machine

namespace Sys2Proof.Machine

open Claims

/-! ### AbsorbByte and ABSORB -/

/-- In a window the cursor's byte exists (R14). -/
theorem window_offset_lt {s : State} (hw : Window s) : s.offset.toNat < 200 := by
  obtain ⟨-, hr, hlt⟩ := hw
  omega

/-- The state with a byte XORed onto the buffer's byte at the cursor: AbsorbByte before the cursor moves (R130). -/
def xorAtCursor (b : Byte) (s : State) : State :=
  { s with S := s.S.write s.offset.toNat (s.S.read s.offset.toNat ^^^ b) }

theorem absorbByte_xorAtCursor {s : State} (hw : Window s) (b : Byte) :
    absorbByte b s = .next (advance (xorAtCursor b s)) :=
  absorbByte_eq (window_offset_lt hw) b

theorem xorAtCursor_window {s : State} (hw : Window s) (b : Byte) : Window (xorAtCursor b s) := hw

theorem xorAtCursor_wf {s : State} (hw : Window s) (hm : s.S.wf) (b : Byte) : (xorAtCursor b s).S.wf :=
  Memory.wf_write hm (window_offset_lt hw) _

/-- The byte at the cursor alone is changed (R130). -/
theorem xorAtCursor_read {s : State} (hm : s.S.wf) (b : Byte) (i : Nat) :
    (xorAtCursor b s).S.read i = if i = s.offset.toNat then s.S.read i ^^^ b else s.S.read i := by
  rw [xorAtCursor, Memory.read_write hm]
  split
  · next hi => rw [hi]
  · rfl

/-- Settles O34: the byte is XORed at the cursor, and the cursor then moves as in every primitive. -/
theorem absorbByteRule : Obligations.AbsorbByteRule := by
  intro s b hw hm
  have hwx := xorAtCursor_window hw b
  obtain ⟨hend, hbelow⟩ := advance_cases hwx
  obtain ⟨-, -, hlt⟩ := advance_window hwx
  refine ⟨_, _, absorbByte_xorAtCursor hw b, xorAtCursor_wf hw hm b, xorAtCursor_read hm b, hend, fun hne => ?_, hlt⟩
  obtain ⟨hmove, hsucc⟩ := hbelow hne
  rw [hmove]
  exact ⟨rfl, hsucc⟩

@[simp] theorem length_bytesOf (w : Word) (n : Nat) : (bytesOf w n).length = n := by simp [bytesOf]

/-- The first `m + k` bytes of a word are its first `m` and the `k` above them. -/
theorem bytesOf_add (w : Word) (m k : Nat) :
    bytesOf w (m + k) = bytesOf w m ++ (List.range k).map fun j => byteOf w (m + j) := by
  simp [bytesOf, List.range_add, Function.comp_def]

/-- Absorbing that fills the window once: the bytes up to its end, the permutation, then the rest from index 0 on
(R130). -/
theorem absorbBytes_across_end {s : State} (hw : Window s) (hm : s.S.wf) (as bs : List Byte)
    (hend : s.offset.toNat + as.length = s.rate.toNat) (hrest : bs.length < s.rate.toNat) :
    ∃ (t : State) (u : Memory), absorbBytes (as ++ bs) s = .next t ∧ u.wf ∧
      (∀ i, u.read i =
        if s.offset.toNat ≤ i ∧ i < s.rate.toNat then s.S.read i ^^^ as.getD (i - s.offset.toNat) 0
        else s.S.read i) ∧
      ∀ i, t.S.read i =
        if i < bs.length then (permute u).read i ^^^ bs.getD i 0 else (permute u).read i := by
  obtain ⟨u, hu, hfirst, hread⟩ := absorbBytes_to_end hw hm as hend
  have hw0 : Window { s with S := permute u, offset := 0 } := ⟨hw.1, hw.2.1, hw.1⟩
  obtain ⟨v, -, hsecond, hreadv⟩ := absorbBytes_below hw0 (wf_permute u) bs
    (show 0 + bs.length < s.rate.toNat by omega)
  refine ⟨_, u, by rw [absorbBytes_append, hfirst, andThen_next, hsecond], hu, fun i => ?_, fun i => ?_⟩
  · rw [hread, hend]
  · simpa using hreadv i

/-- A permitted ABSORB absorbs the first `n` bytes of DIN (R134). -/
theorem exec_absorb {s : State} {n : BitVec 4} (hm : s.mode = .absorbing) (hn : n.toNat ≤ 8) :
    exec (.absorb n) s = absorbBytes (bytesOf s.din n.toNat) s :=
  exec_permitted (by simp [hm]) ⟨hn, hm⟩

/-- Settles O35: the closed forms of absorbing within a window and across its end, for the bytes of DIN. -/
theorem absorbResult : Obligations.AbsorbResult := by
  intro s n hinv hm hn
  have hw : Window s := inv_window hinv (.inl hm)
  obtain ⟨t, ht, -, hwf, hoffset⟩ := absorbBytes_completes hw hinv.1 (bytesOf s.din n.toNat)
  refine ⟨t, (exec_absorb hm hn).trans ht, absorbBytes_frame ht, hwf, by rw [hoffset, length_bytesOf],
    fun hbelow i => ?_, fun hfill honce => ?_, fun h0 => ?_⟩
  · obtain ⟨u, -, hu, hread⟩ := absorbBytes_below hw hinv.1 (bytesOf s.din n.toNat) (by rwa [length_bytesOf])
    obtain rfl := Host.Outcome.next.inj (hu.symm.trans ht)
    refine (hread i).trans ?_
    rw [length_bytesOf]
    split
    · rw [getD_bytesOf _ (by omega)]
      rfl
    · rfl
  · have hlt := hw.2.2
    obtain ⟨k, hk⟩ : ∃ k, n.toNat = s.rate.toNat - s.offset.toNat + k := Nat.exists_eq_add_of_le (by omega)
    rw [hk, bytesOf_add] at ht
    obtain ⟨t', u, hu, huwf, hread, hreadt⟩ := absorbBytes_across_end hw hinv.1
      (bytesOf s.din (s.rate.toNat - s.offset.toNat))
      ((List.range k).map fun j => byteOf s.din (s.rate.toNat - s.offset.toNat + j))
      (by rw [length_bytesOf]; omega) (by rw [List.length_map, List.length_range]; omega)
    obtain rfl := Host.Outcome.next.inj (hu.symm.trans ht)
    refine ⟨u, huwf, fun i => ?_, fun i => ?_⟩
    · rw [hread]
      split
      · rw [getD_bytesOf _ (by omega)]
        rfl
      · rfl
    · rw [hreadt, List.length_map, List.length_range, show s.offset.toNat + n.toNat - s.rate.toNat = k by omega]
      split
      · next hi => simp [hi, byteOf]
      · rfl
  · rw [h0] at ht
    exact (Host.Outcome.next.inj ht).symm

/-- ABSORB takes the same bytes from two values that agree in its first `n` (R134). -/
theorem bytesOf_congr {v w : Word} {n : Nat} (h : ∀ k, k < n → byteOf v k = byteOf w k) : bytesOf v n = bytesOf w n :=
  List.map_congr_left fun k hk => h k (List.mem_range.mp hk)

/-- Settles O36: ABSORB's checks do not read DIN, and its effect reads the first `n` bytes alone. -/
theorem dinBytesBeyondTheCountAreIgnored : Obligations.DinBytesBeyondTheCountAreIgnored := by
  intro s t n v hv h
  rcases exec_cases h with ⟨hm, rfl⟩ | ⟨hm, -, f, -, hf, rfl⟩ | ⟨hm, hp, he, -⟩
  · exact exec_ignored (s := t.setDin v) hm _
  · exact exec_faults (s := s.setDin v) hm hf
  · refine (exec_permitted (i := .absorb n) (s := s.setDin v) hm hp).trans ?_
    rw [effectOf, State.setDin_din, bytesOf_congr hv]
    exact absorbBytes_setDin he v

/-! ### PadAndTransition and PAD -/

/-- The pad block by R132's corner cases: `delim` and 0x80 share a byte exactly when the window's last byte is
next. -/
theorem padByte_eq_padCase (offset rate : Nat) (delim : Byte) (i : Nat) :
    padByte offset rate delim i = padCase offset rate delim i := by
  unfold padByte padCase
  by_cases ho : i = offset
  · by_cases hr : i + 1 = rate
    · rw [if_pos ho, if_pos hr, if_pos ⟨ho, hr⟩]
    · rw [if_pos ho, if_neg hr, if_neg fun h => hr h.2, if_pos ho]
      exact BitVec.or_zero
  · simp [ho]

/-- Padding keeps every byte from `rate` on, those that do not exist included (R132, R142). -/
theorem read_padBuffer_capacity {S : Memory} (hS : S.wf) (offset : Nat) {rate i : Nat} (delim : Byte)
    (hi : rate ≤ i) : (padBuffer offset rate delim S).read i = S.read i := by
  by_cases h200 : i < 200
  · rw [read_padBuffer _ _ _ _ h200, if_neg (by omega)]
  · have h200 : 200 ≤ i := by omega
    exact (Memory.read_outside (Memory.wf_ofFn _) h200).trans (Memory.read_outside hS h200).symm

/-- A permitted PAD pads and transitions (R135). -/
theorem exec_pad {s : State} (hm : s.mode = .absorbing) : exec .pad s = padAndTransition s :=
  exec_permitted (i := .pad) (by simp [hm]) hm

/-- Settles O37: PAD is PadAndTransition, whose buffer before Permute is `padBuffer`. -/
theorem padResult : Obligations.PadResult := by
  intro s hinv hm
  have hw : Window s := inv_window hinv (.inl hm)
  have hpad := padAndTransition_eq hw
  refine ⟨padBuffer s.offset.toNat s.rate.toNat s.delim s.S, Memory.wf_ofFn _, fun i => ?_, hpad,
    (exec_pad hm).trans hpad⟩
  obtain ⟨-, hr, -⟩ := hw
  split
  · next hi => rw [read_padBuffer _ _ _ _ (by omega), if_pos hi, padByte_eq_padCase]
  · next hi => exact read_padBuffer_capacity hinv.1 _ _ (by omega)

/-- Bit 7 of a delimiter is lost under the final bit of the pad block (R132). -/
theorem xor_or_bit7 (d : Byte) : d ^^^ 0x80 ||| 0x80 = d ||| 0x80 := by
  apply BitVec.eq_of_getLsbD_eq
  intro i hi
  simp only [BitVec.getLsbD_or, BitVec.getLsbD_xor]
  cases d.getLsbD i <;> cases (0x80 : Byte).getLsbD i <;> rfl

/-- At the window's last byte the pad block does not show bit 7 of the delimiter (R132). -/
theorem padByte_flip_bit7 (offset : Nat) (delim : Byte) (i : Nat) :
    padByte offset (offset + 1) (delim ^^^ 0x80) i = padByte offset (offset + 1) delim i := by
  by_cases hi : i = offset
  · simp only [padByte, hi, if_true, xor_or_bit7]
  · simp only [padByte, hi, if_false]

/-- Settles O38: the two pad blocks are the same. -/
theorem delimiterBit7IsLostAtTheWindowsEnd : Obligations.DelimiterBit7IsLostAtTheWindowsEnd := by
  intro s hinv hm hend
  have hw : Window s := inv_window hinv (.inl hm)
  have hbuffer : padBuffer s.offset.toNat s.rate.toNat (s.delim ^^^ 0x80) s.S =
      padBuffer s.offset.toNat s.rate.toNat s.delim s.S := by
    simp only [padBuffer, ← hend, padByte_flip_bit7]
  refine ⟨_, (exec_pad hm).trans (padAndTransition_eq hw), ?_⟩
  rw [← hbuffer]
  exact (exec_pad (s := { s with delim := s.delim ^^^ 0x80 }) hm).trans (padAndTransition_eq hw)

/-! ### SqueezeByte, SQUEEZE and FINAL -/

/-- Up to the window's end the cursor's moves show the bytes from `offset` on (R131). -/
theorem byteAfter_of_lt {s : State} (hw : Window s) {k : Nat} (hk : s.offset.toNat + k < s.rate.toNat) :
    byteAfter s k = s.S.read (s.offset.toNat + k) := by
  rw [byteAfter, cursorAfter_offset hw, Nat.mod_eq_of_lt hk, cursorAfter, Nat.div_eq_of_lt hk]
  rfl

/-- The byte that `k` moves of the cursor show, in closed form (R131). -/
theorem byteAfter_eq {s : State} (hw : Window s) (k : Nat) :
    byteAfter s k = (permute^[(s.offset.toNat + k) / s.rate.toNat] s.S).read
      ((s.offset.toNat + k) % s.rate.toNat) := by
  rw [byteAfter, cursorAfter_offset hw]
  rfl

/-- Settles O39: one call by the cursor's two cases, `m` calls by the closed form of a squeeze. -/
theorem squeezeByteRule : Obligations.SqueezeByteRule := by
  intro s hw
  have ⟨hr, _, _⟩ := hw
  obtain ⟨hend, hbelow⟩ := advance_cases hw
  refine ⟨⟨_, squeezeByte_eq (window_offset_lt hw), hend, fun hne => ?_⟩,
    fun m hm => ⟨cursorAfter m s, ?_, fun hfull => ?_, fun hfit => ?_⟩⟩
  · obtain ⟨hmove, hsucc⟩ := hbelow hne
    rw [hmove]
    exact ⟨rfl, hsucc⟩
  · rw [squeezeBytes_eq hw]
    congr 2
    refine List.map_congr_left fun k hk => byteAfter_of_lt hw ?_
    have := List.mem_range.mp hk
    omega
  · rw [cursorAfter, hfull, Nat.div_self hr, Nat.mod_self]
    rfl
  · refine ⟨?_, by rw [cursorAfter_offset hw, Nat.mod_eq_of_lt hfit]⟩
    rw [cursorAfter, Nat.div_eq_of_lt hfit]
    rfl

/-- A squeeze into DOUT in closed form (R136). -/
theorem squeezeToDout_eq {s : State} (hw : Window s) (n : Nat) :
    squeezeToDout n s = .next ((cursorAfter n s).setDout (wordOfBytes ((List.range n).map (byteAfter s)))) := by
  rw [squeezeToDout, squeezeBytes_eq hw, andThen_next]

/-- A permitted SQUEEZE squeezes `n` bytes into DOUT (R136). -/
theorem exec_squeeze {s : State} {n : BitVec 4} (hm : s.mode = .squeezing) (hn : n.toNat ≤ 8) :
    exec (.squeeze n) s = squeezeToDout n.toNat s :=
  exec_permitted (by simp [hm]) ⟨hn, hm⟩

/-- Settles O40: the closed form of a squeeze into DOUT, and the bytes of the word it makes. -/
theorem squeezeResult : Obligations.SqueezeResult := by
  intro s n hinv hm hn
  have hw : Window s := inv_window hinv (.inr hm)
  refine ⟨wordOfBytes ((List.range n.toNat).map (byteAfter s)),
    (exec_squeeze hm hn).trans (squeezeToDout_eq hw n.toNat), fun k hk => ?_⟩
  have hbyte := byteOf_wordOfBytes (bs := (List.range n.toNat).map (byteAfter s)) (by simpa using hn) hk
  refine hbyte.trans ?_
  rw [List.length_map, List.length_range]
  split
  · next hkn => simp [hkn, byteAfter_eq hw]
  · rfl

/-- FINAL from Squeezing is the squeeze, with the mode then Consumed (R137). -/
theorem exec_final_squeezing {s u : State} {n : BitVec 4} (hm : s.mode = .squeezing) (hn : n.toNat ≤ 8)
    (hu : squeezeToDout n.toNat s = .next u) : exec (.final n) s = .next { u with mode := .consumed } := by
  refine (exec_permitted (i := .final n) (by simp [hm]) ⟨hn, .inr hm⟩).trans ?_
  rw [effectOf, if_neg (by simp [hm]), andThen_next, hu]
  rfl

/-- FINAL from Absorbing pads first (R137; conflict C8). -/
theorem exec_final_absorbing {s p u : State} {n : BitVec 4} (hm : s.mode = .absorbing) (hn : n.toNat ≤ 8)
    (hp : padAndTransition s = .next p) (hu : squeezeToDout n.toNat p = .next u) :
    exec (.final n) s = .next { u with mode := .consumed } := by
  refine (exec_permitted (i := .final n) (by simp [hm]) ⟨hn, .inl hm⟩).trans ?_
  rw [effectOf, if_pos hm, hp, andThen_next, hu]
  rfl

/-- Settles O41: FINAL's effect is the padding, while still absorbing, and the squeeze; each of them completes. -/
theorem finalComposesPadAndSqueeze : Obligations.FinalComposesPadAndSqueeze := by
  refine fun s n hinv hn => ⟨fun hm => ?_, fun hm => ?_⟩
  · have hu := squeezeToDout_eq (inv_window hinv (.inr hm)) n.toNat
    exact ⟨_, (exec_squeeze hm hn).trans hu, exec_final_squeezing hm hn hu⟩
  · have hw : Window s := inv_window hinv (.inl hm)
    have hp := padAndTransition_eq hw
    have hu := squeezeToDout_eq (window_padded hw) n.toNat
    exact ⟨_, _, (exec_pad hm).trans hp, (exec_squeeze rfl hn).trans hu, exec_final_absorbing hm hn hp hu⟩

end Sys2Proof.Machine

namespace Sys2Proof.Machine

open Claims

/-! ### How many permutations -/

/-- The cursor's moves that fill the window, in closed form (R144). -/
theorem boundaryPermutes_eq {s : State} (hw : Window s) (n : Nat) :
    boundaryPermutes n s = (s.offset.toNat + n) / s.rate.toNat := by
  have h := boundaryPermutes_cursorAfter hw n 0
  rwa [cursorAfter_zero hw, Nat.add_zero, Nat.div_eq_of_lt hw.2.2, Nat.add_zero] at h

/-- A squeeze into DOUT permutes the buffer once for each time its cursor fills the window (R144). -/
theorem squeezeToDout_permutes {s t : State} {n : Nat} (hw : Window s) (h : squeezeToDout n s = .next t) :
    t.S = permute^[(s.offset.toNat + n) / s.rate.toNat] s.S := by
  obtain rfl := Host.Outcome.next.inj ((squeezeToDout_eq hw n).symm.trans h)
  rfl

/-- The buffer after FINAL from Absorbing: the padded one, permuted for the padding and for each full window (R137,
R144). -/
theorem effectOf_final_absorbing_buffer {s t : State} {n : BitVec 4} (hw : Window s) (hm : s.mode = .absorbing)
    (h : effectOf (.final n) s = .next t) :
    t.S = permute^[1 + n.toNat / s.rate.toNat] (padBuffer s.offset.toNat s.rate.toNat s.delim s.S) := by
  obtain ⟨p, u, hp, hu, rfl⟩ := effectOf_final_next h
  rw [if_pos hm] at hp
  obtain rfl := padAndTransition_next hp
  rw [Nat.add_comm 1, Function.iterate_succ_apply, State.setMode_S, squeezeToDout_permutes (window_padded hw) hu]
  congr 2
  exact Nat.zero_add n.toNat

/-- The buffer after FINAL from Squeezing (R137, R144). -/
theorem effectOf_final_squeezing_buffer {s t : State} {n : BitVec 4} (hw : Window s) (hm : s.mode ≠ .absorbing)
    (h : effectOf (.final n) s = .next t) :
    t.S = permute^[(s.offset.toNat + n.toNat) / s.rate.toNat] s.S := by
  obtain ⟨p, u, hp, hu, rfl⟩ := effectOf_final_next h
  rw [if_neg hm] at hp
  subst hp
  rw [State.setMode_S, squeezeToDout_permutes hw hu]

/-- Settles O44: a command that ends outside Fault had its effect, and R144's count of it is what the cursor's closed
form permutes. -/
theorem permuteCounts : Obligations.PermuteCounts := by
  refine fun i s t hinv hx => ⟨fun ht => ⟨permuteCount_of_fault hx ht, ?_⟩, fun ht => ?_⟩
  · rw [exec_fault_frame hx ht]
  obtain ⟨-, hp, he⟩ := exec_outside_fault hx ht
  rw [permuteCount_of_next hx ht]
  cases i with
  | init rate delim =>
    obtain rfl := Host.Outcome.next.inj he
    exact ⟨rfl, rfl⟩
  | absorb n => exact ⟨rfl, boundaryPermutes_eq (inv_window hinv (.inl hp.2)) n.toNat⟩
  | pad =>
    obtain rfl := padAndTransition_next he
    exact ⟨rfl, rfl⟩
  | squeeze n =>
    have hw : Window s := inv_window hinv (.inr hp.2)
    exact ⟨rfl, boundaryPermutes_eq hw n.toNat, squeezeToDout_permutes hw he⟩
  | final n =>
    have hw : Window s := inv_window hinv hp.2
    by_cases hm : s.mode = .absorbing
    · simp only [permutesOf, if_pos hm]
      exact ⟨trivial, effectOf_final_absorbing_buffer hw hm he⟩
    · simp only [permutesOf, if_neg hm]
      exact ⟨trivial, boundaryPermutes_eq hw n.toNat, effectOf_final_squeezing_buffer hw hm he⟩

/-! ### The capacity region -/

/-- A permitted command other than INIT that performs no permutation keeps every byte from `rate` on (R142). -/
theorem effectOf_keeps_capacity {i : Instr} {s t : State} (hinv : Inv s) (hp : Permitted i s)
    (he : effectOf i s = .next t) (hi : ∀ rate delim, i ≠ .init rate delim) (h0 : permutesOf i s = 0) {a : Nat}
    (ha : s.rate.toNat ≤ a) : t.S.read a = s.S.read a := by
  cases i with
  | init rate delim => exact absurd rfl (hi rate delim)
  | absorb n =>
    have hw : Window s := inv_window hinv (.inl hp.2)
    have hfit : s.offset.toNat + n.toNat < s.rate.toNat := (Nat.div_eq_zero_iff_lt hw.1).mp h0
    refine absorbBytes_read_outside hw hinv.1 ?_ he ?_
    · rwa [length_bytesOf]
    · rw [length_bytesOf]
      omega
  | pad => exact absurd h0 (by simp [permutesOf])
  | squeeze n =>
    have hw : Window s := inv_window hinv (.inr hp.2)
    rw [squeezeToDout_buffer hw ((Nat.div_eq_zero_iff_lt hw.1).mp h0) he]
  | final n =>
    have hw : Window s := inv_window hinv hp.2
    rw [permutesOf] at h0
    split at h0
    · exact absurd (Nat.eq_zero_of_add_eq_zero_right h0) Nat.one_ne_zero
    · next hm =>
      rw [effectOf_final_squeezing_buffer hw hm he, h0]
      rfl

/-- A CMD write that changes a byte from `rate` on is an INIT, or a command that performs a Permute (R142). -/
theorem executeWord_capacity {c : Word} {s t : State} {a : Nat} (hinv : Inv s) (hx : executeWord c s = .next t)
    (ha : s.rate.toNat ≤ a) (hne : t.S.read a ≠ s.S.read a) :
    (∃ rate delim, c = encode (.init rate delim)) ∨ ∃ j, c = encode j ∧ 0 < permuteCount j s := by
  rcases executeWord_outcome hx with ⟨-, rfl⟩ | ⟨-, f, -, rfl⟩ | ⟨hm, ht, i, hd, hp, he⟩
  · exact absurd rfl hne
  · exact absurd rfl hne
  · have hc : c = encode i := (encode_of_decode hd).symm
    by_cases hi : ∃ rate delim, i = .init rate delim
    · obtain ⟨rate, delim, rfl⟩ := hi
      exact .inl ⟨rate, delim, hc⟩
    · refine .inr ⟨i, hc, Nat.pos_of_ne_zero fun h0 => hne ?_⟩
      rw [permuteCount_of_next ((exec_permitted hm hp).trans he) ht] at h0
      exact effectOf_keeps_capacity hinv hp he (fun rate delim e => hi ⟨rate, delim, e⟩) h0 ha

/-- Settles O43: the three primitives write the window alone before they permute, and of the host's actions only
reset and CMD writes change the buffer. -/
theorem capacityWrittenOnlyByPermuteInitAndReset : Obligations.CapacityWrittenOnlyByPermuteInitAndReset := by
  refine ⟨fun s t b hw hm h => ?_, fun s t hw hm h => ?_, fun s t b h => ?_, fun a s t i hinv hx hi hne => ?_⟩
  · obtain ⟨-, rfl⟩ := absorbByte_next h
    refine ⟨(xorAtCursor b s).S, fun i hi => ?_, hw.2.2, ?_⟩
    · rw [xorAtCursor_read hm, if_neg hi]
    · rw [advance_S]
      exact (ite_eq_or_eq _ _ _).symm
  · obtain rfl := padAndTransition_next h
    exact ⟨_, fun i hi => read_padBuffer_capacity hm _ _ hi, rfl⟩
  · obtain ⟨-, hr⟩ := squeezeByte_next h
    obtain ⟨-, rfl⟩ := Prod.mk.inj hr
    rw [advance_S]
    exact (ite_eq_or_eq _ _ _).symm
  · rcases perform_cases hx with ⟨_, -, rfl⟩ | ⟨c, rfl, hc⟩ | ⟨v, -, rfl⟩ | ⟨_, _, -, -, rfl⟩ | ⟨ha, -⟩
    · exact absurd rfl hne
    · refine .inr ((executeWord_capacity hinv hc hi hne).imp ?_ ?_)
      · rintro ⟨rate, delim, rfl⟩
        exact ⟨rate, delim, rfl⟩
      · rintro ⟨j, rfl, hj⟩
        exact ⟨j, rfl, hj⟩
    · exact absurd rfl hne
    · exact absurd rfl hne
    · exact .inl ha

/-! ### Splitting -/

/-- Settles O45: chunk after chunk, the host absorbs the bytes that both cuts have in common. -/
theorem absorbSplitIsIrrelevant : Obligations.AbsorbSplitIsIrrelevant := by
  intro s cs ds hinv hm hcs hds hflat
  obtain ⟨u, hu, -⟩ := absorbBytes_completes (inv_window hinv (.inl hm)) hinv.1 cs.flatten
  obtain ⟨v, hv⟩ := performAll_absorbChunks hcs hm hu
  obtain ⟨w, hw⟩ := performAll_absorbChunks hds hm (hflat ▸ hu)
  exact ⟨_, _, hv, hw, rfl, rfl, rfl⟩

/-- The bytes of fewer calls of SqueezeByte begin the bytes of more (R141). -/
theorem squeezeBytes_prefix {s u v : State} {m n : Nat} {as bs : List Byte} (hmn : m ≤ n)
    (hm : squeezeBytes m s = .next (as, u)) (hn : squeezeBytes n s = .next (bs, v)) : as <+: bs := by
  obtain ⟨k, rfl⟩ := Nat.exists_eq_add_of_le hmn
  rw [squeezeBytes_add, hm, andThen_next] at hn
  obtain ⟨q, -, hq⟩ := andThen_eq_next.mp hn
  obtain ⟨rfl, -⟩ := Prod.mk.inj (Host.Outcome.next.inj hq)
  exact List.prefix_append as q.1

/-- Settles O46: a run of squeezing commands hands over the bytes of as many calls of SqueezeByte. -/
theorem squeezeSplitIsIrrelevant : Obligations.SqueezeSplitIsIrrelevant := by
  intro s ns ms k l hinv hm hns hms
  have hw : Window s := inv_window hinv (.inr hm)
  obtain ⟨t, ws, v, ht, hobst, -, hv⟩ := performAll_squeezeProgram hns hw hinv.1 hm
  obtain ⟨u, zs, w, hu, hobsu, -, hw'⟩ := performAll_squeezeProgram hms hw hinv.1 hm
  rw [← runOutput_eq hobst] at hv
  rw [← runOutput_eq hobsu] at hw'
  exact ⟨t, u, v, w, ht, hu, hv, hw', fun hle => squeezeBytes_prefix hle hv hw'⟩

end Sys2Proof.Machine

namespace Sys2Proof.Reference

open Machine Claims

/-! ### What a model state and a reference state have in common -/

/-- A model state and a reference state hold the same registers and the same 200 bytes. -/
structure Tracks (s : State) (r : Sponge) : Prop where
  buffer : ∀ i, i < 200 → s.S.read i = r.S i
  offset : s.offset.toNat = r.offset
  rate : s.rate.toNat = r.rate
  delim : s.delim = r.delim
  mode : s.mode.code.toNat = r.mode
  din : s.din = r.DIN
  dout : s.dout = r.DOUT
  fcode : s.fcode.code.toNat = r.FCODE
  fcmd : s.fcmd = r.FCMD

/-- A field of a word as a number: the reference's `c[hi:lo]` (R10). -/
theorem bits_eq_toNat (c : Word) (hi lo : Nat) : bits c hi lo = (c.extractLsb' lo (hi + 1 - lo)).toNat := by
  rw [bits, BitVec.extractLsb'_toNat, Nat.shiftRight_eq_div_pow]

/-- The reference reads the mode off STATUS (R29). -/
theorem view_mode (s : State) : (view s).mode = s.mode.code.toNat := by
  rw [← status_mode, ← bits_eq_toNat (status s) 2 0]
  simp [view, bits]

/-- The reference reads the fault code off STATUS, whose bits above it are zero (R29). -/
theorem view_fcode (s : State) : (view s).FCODE = s.fcode.code.toNat := by
  have hfield : bits (status s) 35 32 = s.fcode.code.toNat := by rw [← status_fcode, bits_eq_toNat]
  have hhigh : bits (status s) 63 36 = 0 := by
    rw [bits_eq_toNat, status_reserved_high]
    rfl
  simp only [view, bits] at hfield hhigh ⊢
  omega

/-- The view of a model state agrees with what the state tracks. -/
theorem agrees_view_iff {s : State} {r : Sponge} : Agrees (view s) r ↔ Tracks s r := by
  unfold Agrees
  rw [view_mode, view_fcode]
  constructor
  · rintro ⟨hbuffer, hoffset, hrate, hdelim, hmode, hdin, hdout, hfcode, hfcmd⟩
    exact ⟨hbuffer, hoffset, hrate, hdelim, hmode, hdin, hdout, hfcode, hfcmd⟩
  · rintro ⟨hbuffer, hoffset, hrate, hdelim, hmode, hdin, hdout, hfcode, hfcmd⟩
    exact ⟨hbuffer, hoffset, hrate, hdelim, hmode, hdin, hdout, hfcode, hfcmd⟩

/-- A model state tracks its own view. -/
theorem tracks_view (s : State) : Tracks s (view s) :=
  agrees_view_iff.mp ⟨fun _ _ => rfl, rfl, rfl, rfl, rfl, rfl, rfl, rfl, rfl⟩

/-! ### Bytes and words -/

/-- Byte `k` as the reference cuts it out of a word (R54). -/
theorem byteOf_eq_shift (w : Word) (k : Nat) : byteOf w k = (w >>> (8 * k)).setWidth 8 := rfl

theorem wordOfFn_congr {f g : Nat → Byte} {n : Nat} (h : ∀ k, k < n → f k = g k) : wordOfFn f n = wordOfFn g n := by
  induction n with
  | zero => rfl
  | succ n ih => rw [wordOfFn, wordOfFn, ih fun k hk => h k (by omega), h n (by omega)]

/-- The word of the bytes `f 0, …, f (n-1)`, whether they come as a list or as a function. -/
theorem wordOfBytes_map_range (f : Nat → Byte) (n : Nat) : wordOfBytes ((List.range n).map f) = wordOfFn f n := by
  rw [wordOfBytes, List.length_map, List.length_range]
  exact wordOfFn_congr fun k hk => by simp [hk]

/-- The first `n` bytes of a word share no bit with a byte shifted above them. -/
theorem wordOfFn_and_shift (f : Nat → Byte) {n : Nat} (hn : n ≤ 8) (b : Byte) :
    wordOfFn f n &&& b.zeroExtend 64 <<< (8 * n) = 0 := by
  apply BitVec.eq_of_getLsbD_eq
  intro i hi
  rw [BitVec.getLsbD_and, BitVec.getLsbD_shiftLeft]
  by_cases hlow : i < 8 * n
  · simp [hlow]
  · rw [← getLsbD_byteOf, byteOf_wordOfFn f n _ hn (by omega), if_neg (by omega)]
    simp

/-- A sum of bytes shifted to their places is the word of those bytes (R51). -/
theorem foldl_add_bytes (f : Nat → Byte) {n : Nat} (hn : n ≤ 8) :
    (List.range n).foldl (fun w j => w + (f j).zeroExtend 64 <<< (8 * j)) 0 = wordOfFn f n := by
  induction n with
  | zero => rfl
  | succ n ih =>
    rw [List.range_succ, List.foldl_append, ih (by omega), List.foldl_cons, List.foldl_nil, wordOfFn,
      BitVec.add_eq_or_of_and_eq_zero _ _ (wordOfFn_and_shift f (by omega) (f n))]

/-- The reference's Permute on a byte function is the model's on a buffer of the same 200 bytes. -/
theorem read_permute_eq {S : Memory} {f : Nat → Byte} (h : ∀ i, i < 200 → S.read i = f i) {i : Nat} (hi : i < 200) :
    (permute S).read i = permuteBytes f i := by
  have hpack : pack S = Lanes.ofFn fun x y =>
      (List.range 8).foldl (fun w j => w + (f (8 * (x.val + 5 * y.val) + j)).zeroExtend 64 <<< (8 * j)) 0 := by
    refine Lanes.ext_lane fun x y => ?_
    rw [Lanes.lane_ofFn, foldl_add_bytes (fun j => f (8 * (x.val + 5 * y.val) + j)) (le_refl 8), pack, Lanes.lane_ofFn]
    exact wordOfFn_congr fun j hj => h _ (by omega)
  have hx : mod5 (i / 8) = Fin.ofNat 5 (i / 8 % 5) := Fin.ext (Nat.mod_mod _ _).symm
  have hy : mod5 (i / 8 / 5) = Fin.ofNat 5 (i / 40) := Fin.ext (by rw [Nat.div_div_eq_div_mul]; rfl)
  rw [permute, read_unpack _ hi, laneByte, byteOf_eq_shift, hx, hy, hpack]
  rfl

/-! ### The primitives -/

/-- The cursor's move (R130, R131). -/
theorem tracks_advance {s : State} {r : Sponge} (hw : Window s) (h : Tracks s r) :
    Tracks (advance s) (wrap { r with offset := r.offset + 1 }) := by
  obtain ⟨hend, hbelow⟩ := advance_cases hw
  unfold wrap
  by_cases hfull : s.offset.toNat + 1 = s.rate.toNat
  · rw [hend hfull, if_pos (show r.offset + 1 = r.rate by rw [← h.offset, ← h.rate, hfull])]
    exact { h with buffer := fun i hi => read_permute_eq h.buffer hi, offset := rfl }
  · obtain ⟨hmove, hsucc⟩ := hbelow hfull
    rw [hmove, if_neg (show r.offset + 1 ≠ r.rate by rw [← h.offset, ← h.rate]; exact hfull)]
    exact { h with offset := hsucc.trans (congrArg (· + 1) h.offset) }

/-- AbsorbByte (R130). -/
theorem tracks_absorbByte {s : State} {r : Sponge} (hw : Window s) (hm : s.S.wf) (h : Tracks s r) (b : Byte) :
    Tracks (advance (xorAtCursor b s)) (absorbByte b r) := by
  have hxor : Tracks (xorAtCursor b s) { r with S := fun i => if i = r.offset then r.S i ^^^ b else r.S i } :=
    { h with buffer := fun i hi => by rw [xorAtCursor_read hm, h.offset, h.buffer i hi] }
  have hmove := tracks_advance (xorAtCursor_window hw b) hxor
  exact hmove

/-- The loop of ABSORB over any byte numbers of DIN (R134). -/
theorem tracks_absorbBytes (ks : List Nat) {s : State} {r : Sponge} (hw : Window s) (hm : s.S.wf) (h : Tracks s r) :
    ∃ t, absorbBytes (ks.map (byteOf s.din)) s = .next t ∧
      Tracks t (ks.foldl (fun r k => absorbByte ((r.DIN >>> (8 * k)).setWidth 8) r) r) := by
  induction ks generalizing s r with
  | nil => exact ⟨s, rfl, h⟩
  | cons k ks ih =>
    have hbyte : (r.DIN >>> (8 * k)).setWidth 8 = byteOf s.din k := by rw [byteOf_eq_shift, h.din]
    obtain ⟨t, ht, htracks⟩ := ih (advance_window (xorAtCursor_window hw _)) (advance_wf (xorAtCursor_wf hw hm _))
      (tracks_absorbByte hw hm h (byteOf s.din k))
    rw [advance_din] at ht
    refine ⟨t, ?_, ?_⟩
    · rw [List.map_cons, absorbBytes_cons, absorbByte_xorAtCursor hw, andThen_next]
      exact ht
    · rwa [List.foldl_cons, hbyte]

theorem squeezeLoop_succ (n : Nat) (r : Sponge) : squeezeLoop (n + 1) r =
    ((squeezeLoop n r).1 ||| (squeezeByte (squeezeLoop n r).2).1.zeroExtend 64 <<< (8 * n),
      (squeezeByte (squeezeLoop n r).2).2) := by
  rw [squeezeLoop, List.range_succ, List.foldl_append]
  rfl

/-- The loop of SQUEEZE: the bytes the cursor's moves show, and the state after as many moves (R131, R136). -/
theorem tracks_squeezeLoop {s : State} {r : Sponge} (hw : Window s) (h : Tracks s r) (n : Nat) :
    (squeezeLoop n r).1 = wordOfFn (byteAfter s) n ∧ Tracks (cursorAfter n s) (squeezeLoop n r).2 := by
  induction n with
  | zero =>
    rw [cursorAfter_zero hw]
    exact ⟨rfl, h⟩
  | succ n ih =>
    obtain ⟨hword, htracks⟩ := ih
    have hwn := cursorAfter_window hw n
    have hbyte : (squeezeByte (squeezeLoop n r).2).1 = byteAfter s n := by
      rw [byteAfter, htracks.buffer _ (window_offset_lt hwn), htracks.offset]
      rfl
    rw [squeezeLoop_succ, hword, hbyte, ← advance_cursorAfter hw]
    exact ⟨rfl, tracks_advance hwn htracks⟩

/-- SQUEEZE once permitted (R136). -/
theorem tracks_squeeze {s : State} {r : Sponge} (hw : Window s) (h : Tracks s r) (n : Nat) :
    ∃ t, squeezeToDout n s = .next t ∧ Tracks t (squeeze n r) := by
  obtain ⟨hword, htracks⟩ := tracks_squeezeLoop hw h n
  refine ⟨_, squeezeToDout_eq hw n, { htracks with dout := ?_ }⟩
  rw [State.setDout_dout, wordOfBytes_map_range]
  exact hword.symm

/-- The pad block's bytes (R132). -/
theorem padBlock_eq {s : State} {r : Sponge} (hw : Window s) (h : Tracks s r) (i : Nat) :
    padBlock r i = padByte s.offset.toNat s.rate.toNat s.delim i := by
  have hr : 1 ≤ r.rate := h.rate ▸ hw.1
  have hlast : i + 1 = r.rate ↔ i = r.rate - 1 := by omega
  rw [padByte, h.offset, h.rate, h.delim, padBlock]
  simp only [hlast]
  split
  · rfl
  · exact BitVec.or_zero.symm

/-- PadAndTransition (R132). -/
theorem tracks_pad {s : State} {r : Sponge} (hw : Window s) (h : Tracks s r) :
    Tracks { s with
      S := permute (padBuffer s.offset.toNat s.rate.toNat s.delim s.S), offset := 0, mode := .squeezing }
      (padAndTransition r) := by
  have hblock : ∀ j, j < 200 → (padBuffer s.offset.toNat s.rate.toNat s.delim s.S).read j =
      if j < r.rate then r.S j ^^^ padBlock r j else r.S j := fun j hj => by
    rw [read_padBuffer _ _ _ _ hj, ← padBlock_eq hw h, h.rate, h.buffer j hj]
  exact { h with buffer := fun i hi => read_permute_eq hblock hi, offset := rfl, mode := rfl }

/-! ### The commands -/

/-- What the reference's command does once its checks have passed (R133 to R137). -/
def effect : Instr → Sponge → Sponge
  | .init rt dl, r => { r with S := fun _ => 0, offset := 0, rate := rt.toNat, delim := dl, DOUT := 0, mode := 1 }
  | .absorb n, r => absorb n.toNat r
  | .pad, r => padAndTransition r
  | .squeeze n, r => squeeze n.toNat r
  | .final n, r => { squeeze n.toNat (if r.mode = 1 then padAndTransition r else r) with mode := 3 }

/-- The mode's code names the mode (R29). -/
theorem code_injective {m n : Mode} : m.code.toNat = n.code.toNat ↔ m = n := by
  cases m <;> cases n <;> decide

theorem tracks_mode_iff {s : State} {r : Sponge} (h : Tracks s r) (m : Mode) :
    r.mode = m.code.toNat ↔ s.mode = m := by
  rw [← h.mode, code_injective]

/-- FINAL's squeeze, with the mode then Consumed (R137). -/
theorem tracks_consume {s : State} {r : Sponge} (hw : Window s) (h : Tracks s r) (n : Nat) :
    ∃ t, andThen (squeezeToDout n s) (fun u => .next (u.setMode .consumed)) = .next t ∧
      Tracks t { squeeze n r with mode := 3 } := by
  obtain ⟨u, hu, htracks⟩ := tracks_squeeze hw h n
  exact ⟨u.setMode .consumed, by rw [hu, andThen_next], { htracks with mode := rfl }⟩

/-- A permitted command's effect does what the reference's does. -/
theorem tracks_effect {i : Instr} {s : State} {r : Sponge} (hinv : Inv s) (hp : Permitted i s) (h : Tracks s r) :
    ∃ t, effectOf i s = .next t ∧ Tracks t (effect i r) := by
  cases i with
  | init rt dl =>
    exact ⟨_, rfl,
      { h with buffer := fun _ _ => rfl, offset := rfl, rate := rfl, delim := rfl, mode := rfl, dout := rfl }⟩
  | absorb n => exact tracks_absorbBytes (List.range n.toNat) (inv_window hinv (.inl hp.2)) hinv.1 h
  | pad =>
    have hw := inv_window hinv (.inl hp)
    exact ⟨_, padAndTransition_eq hw, tracks_pad hw h⟩
  | squeeze n => exact tracks_squeeze (inv_window hinv (.inr hp.2)) h n.toNat
  | final n =>
    have hw := inv_window hinv hp.2
    have hmode : r.mode = 1 ↔ s.mode = .absorbing := tracks_mode_iff h .absorbing
    simp only [effectOf, effect, hmode]
    by_cases ha : s.mode = .absorbing
    · rw [if_pos ha, if_pos ha, padAndTransition_eq hw, andThen_next]
      exact tracks_consume (window_padded hw) (tracks_pad hw h) n.toNat
    · rw [if_neg ha, if_neg ha, andThen_next]
      exact tracks_consume hw h n.toNat

/-- Fault entry (R174). -/
theorem tracks_enterFault {s : State} {r : Sponge} (h : Tracks s r) (f : FaultCode) (c : Word) :
    Tracks (enterFault f c s) (raiseFault f.code.toNat c r) :=
  { h with mode := rfl, fcode := rfl, fcmd := rfl }

/-! ### The fields of a CMD value as numbers (R70) -/

@[simp] theorem bits_op (c : Word) : bits c 3 0 = (opField c).toNat := bits_eq_toNat c 3 0
@[simp] theorem bits_cnt (c : Word) : bits c 7 4 = (cntField c).toNat := bits_eq_toNat c 7 4
@[simp] theorem bits_rate (c : Word) : bits c 15 8 = (rateField c).toNat := bits_eq_toNat c 15 8
@[simp] theorem bits_delim (c : Word) : bits c 23 16 = (delimField c).toNat := bits_eq_toNat c 23 16
@[simp] theorem bits_res (c : Word) : bits c 63 24 = (resField c).toNat := bits_eq_toNat c 63 24

/-- A field is zero when its number is. -/
theorem toNat_eq_zero_iff {w : Nat} {v : BitVec w} : v.toNat = 0 ↔ v = 0 := by
  rw [← BitVec.toNat_inj]
  simp

/-- RATE and DELIM together (R72). -/
@[simp] theorem bits_rateDelim {c : Word} : bits c 23 8 = 0 ↔ rateField c = 0 ∧ delimField c = 0 := by
  rw [← rateDelim_eq_zero, bits_eq_toNat]
  exact toNat_eq_zero_iff

/-- Everything above OP together (R72). -/
@[simp] theorem bits_aboveOp {c : Word} :
    bits c 63 4 = 0 ↔ resField c = 0 ∧ cntField c = 0 ∧ rateField c = 0 ∧ delimField c = 0 := by
  simp only [← toNat_eq_zero_iff, ← bits_res, ← bits_cnt, ← bits_rate, ← bits_delim, bits]
  omega

/-! ### A CMD write -/

/-- In Fault the reference ignores the value (R176). -/
theorem cmdWrite_ignored {s : State} {r : Sponge} (h : Tracks s r) (hm : s.mode = .fault) (c : Word) :
    cmdWrite c r = r :=
  if_pos ((tracks_mode_iff h .fault).mpr hm)

theorem mode_ne_four {s : State} {r : Sponge} (h : Tracks s r) (hm : s.mode ≠ .fault) : r.mode ≠ 4 :=
  mt (tracks_mode_iff h .fault).mp hm

/-- R77's illegal words by their opcode, in the reference's numbers: the first check of each command's rule. -/
theorem illegalWord_iff_bits {c : Word} :
    (bits c 3 0 = 1 → (IllegalWord c ↔ bits c 63 24 ≠ 0 ∨ bits c 7 4 ≠ 0)) ∧
    (bits c 3 0 = 2 ∨ bits c 3 0 = 4 ∨ bits c 3 0 = 5 → (IllegalWord c ↔ bits c 63 24 ≠ 0 ∨ bits c 23 8 ≠ 0)) ∧
    (bits c 3 0 = 3 → (IllegalWord c ↔ bits c 63 4 ≠ 0)) := by
  have hop : ∀ k : BitVec 4, bits c 3 0 = k.toNat ↔ opField c = k := fun k => by rw [bits_op, BitVec.toNat_inj]
  simp only [illegalWord_iff, ne_eq, bits_aboveOp, bits_rateDelim, bits_res, bits_cnt, toNat_eq_zero_iff]
  refine ⟨fun h => ?_, fun h => ?_, fun h => ?_⟩
  · simp [(hop 1).mp h]
  · rcases h with h | h | h
    · simp [(hop 2).mp h]
    · simp [(hop 4).mp h]
    · simp [(hop 5).mp h]
  · simp [(hop 3).mp h, or_iff_not_imp_left]

/-- Outside Fault an illegal word fails the reference's first check, whatever its opcode (R77, R173). -/
theorem cmdWrite_illegal {c : Word} {r : Sponge} (hm : r.mode ≠ 4) (hc : IllegalWord c) :
    cmdWrite c r = raiseFault 1 c r := by
  obtain ⟨hinit, hcount, hpad⟩ := illegalWord_iff_bits (c := c)
  unfold cmdWrite
  rw [if_neg hm]
  split
  · next h => exact if_pos ((hinit h).mp hc)
  split
  · next h => exact if_pos ((hcount (.inl h)).mp hc)
  split
  · next h => exact if_pos ((hpad h).mp hc)
  split
  · next h => exact if_pos ((hcount (.inr (.inl h))).mp hc)
  split
  · next h => exact if_pos ((hcount (.inr (.inr h))).mp hc)
  · rfl

/-- The reference's form of a command: the fault of the first check that fails, otherwise `done` (R173, R174). -/
def guarded (c : Word) (checks : List (Bool × FaultCode)) (r done : Sponge) : Sponge :=
  match firstFailing checks with
  | some f => raiseFault f.code.toNat c r
  | none => done

@[simp] theorem guarded_nil (c : Word) (r done : Sponge) : guarded c [] r done = done := rfl

@[simp] theorem guarded_cons (c : Word) (b : Bool) (f : FaultCode) (rest : List (Bool × FaultCode)) (r done : Sponge) :
    guarded c ((b, f) :: rest) r done = if b then raiseFault f.code.toNat c r else guarded c rest r done := by
  cases b <;> rfl

/-- The model's checks of a command are those of the reference's rule, in its order (R133 to R137). -/
theorem cmdWrite_encode {i : Instr} {s : State} {r : Sponge} (h : Tracks s r) (hm : s.mode ≠ .fault) :
    cmdWrite (encode i) r = guarded (encode i) (checksOf i s) r (effect i r) := by
  have h4 := mode_ne_four h hm
  have hidle : r.mode = 0 ↔ s.mode = .idle := tracks_mode_iff h .idle
  have habsorbing : r.mode = 1 ↔ s.mode = .absorbing := tracks_mode_iff h .absorbing
  have hsqueezing : r.mode = 2 ↔ s.mode = .squeezing := tracks_mode_iff h .squeezing
  have hconsumed : r.mode = 3 ↔ s.mode = .consumed := tracks_mode_iff h .consumed
  unfold cmdWrite
  rw [if_neg h4]
  cases i with
  | init rt dl =>
    have hrate : (!legalRate rt) = true ↔ rt.toNat = 0 ∨ 200 ≤ rt.toNat := by simp [legalRate]; omega
    simp [encode, init, checksOf, hrate, effect, FaultCode.code]
  | absorb n => simp [encode, absorbCommand, checksOf, legalCount, hidle, hconsumed, habsorbing, effect, FaultCode.code]
  | pad => simp [encode, padCommand, checksOf, hidle, hconsumed, habsorbing, effect, FaultCode.code]
  | squeeze n =>
    simp [encode, squeezeCommand, checksOf, legalCount, hidle, hconsumed, hsqueezing, effect, FaultCode.code]
  | final n => simp [encode, finalCommand, checksOf, legalCount, hidle, hconsumed, habsorbing, effect, FaultCode.code]

/-- Settles O50: after every CMD write the model's state tracks the reference's. -/
theorem modelRefinesThePseudocode : Obligations.ModelRefinesThePseudocode := by
  intro c s hinv
  have h := tracks_view s
  obtain ⟨t, hx⟩ := executeWord_completes hinv c
  refine ⟨t, hx, agrees_view_iff.mpr ?_⟩
  rcases executeWord_cases hx with ⟨i, hd, hi⟩ | ⟨e, hd, ⟨hm, rfl⟩ | ⟨hm, rfl⟩⟩
  · obtain rfl := encode_of_decode hd
    rcases exec_cases hi with ⟨hm, rfl⟩ | ⟨hm, -, f, -, hf, rfl⟩ | ⟨hm, hp, he, -⟩
    · rwa [cmdWrite_ignored h hm]
    · rw [cmdWrite_encode h hm, guarded, hf]
      exact tracks_enterFault h f _
    · obtain ⟨t', ht', htracks⟩ := tracks_effect hinv hp h
      obtain rfl := Host.Outcome.next.inj (ht'.symm.trans he)
      rwa [cmdWrite_encode h hm, guarded, (firstFailing_checksOf hm).mpr hp]
  · rwa [cmdWrite_ignored h hm]
  · rw [cmdWrite_illegal (mode_ne_four h hm) (exists_decode_error.mp ⟨e, hd⟩)]
    exact tracks_enterFault h .illegalCommand c

end Sys2Proof.Reference
end

section
/-! PROOFS of the family 60_exceptions: the checks in their order (R171, R173), fault entry (R174, R185), what Fault
keeps and who leaves it (R176 to R178), safe runs (R202), and the engines of a platform (R183). -/

namespace Sys2Proof.Machine

open Claims

/-! ### The check that decides -/

/-- For a value that decodes, R173's checks on its raw fields are the checks of the command it decodes to: INIT's one
check is its rate's, and in each mode the other commands' lists stop at the same code. -/
theorem decidingCode_of_decode {c : Word} {i : Instr} {s : State} (hm : s.mode ≠ .fault) (hd : decode c = .ok i) :
    decidingCode c s = firstFailing (checksOf i s) := by
  have hop : c.extractLsb' 0 4 = opField c := rfl
  have hcnt : c.extractLsb' 4 4 = cntField c := rfl
  have hrate : c.extractLsb' 8 8 = rateField c := rfl
  rw [decidingCode, if_neg (exists_decode_ok.mp ⟨i, hd⟩), hop, hcnt, hrate]
  obtain ⟨-, ⟨ho, -, rfl⟩ | ⟨ho, -, -, rfl⟩ | ⟨ho, -, -, -, rfl⟩ | ⟨ho, -, -, rfl⟩ | ⟨ho, -, -, rfl⟩⟩ := decode_ok.mp hd
  · have hlegal : legalRate (rateField c) = false ↔ (rateField c).toNat = 0 ∨ 200 ≤ (rateField c).toNat := by
      rw [legalRate, decide_eq_false_iff_not]
      omega
    simp [ho, checksOf, firstFailing_cons, hlegal]
  · cases hs : s.mode <;> simp_all [checksOf, firstFailing_cons, legalCount]
  · cases hs : s.mode <;> simp_all [checksOf, firstFailing_cons]
  · cases hs : s.mode <;> simp_all [checksOf, firstFailing_cons, legalCount]
  · cases hs : s.mode <;> simp_all [checksOf, firstFailing_cons, legalCount]

/-- The code of the first of R173's checks that fails is the one fault entry records (R174). -/
theorem executeWord_deciding_some {c : Word} {s : State} {f : FaultCode} (hm : s.mode ≠ .fault)
    (hf : decidingCode c s = some f) : executeWord c s = .next (faulted f c s) := by
  by_cases hc : IllegalWord c
  · obtain rfl := Option.some.inj ((if_pos hc).symm.trans hf)
    exact executeWord_illegal hm hc
  · obtain ⟨i, hd⟩ := exists_decode_ok.mpr hc
    rw [decidingCode_of_decode hm hd] at hf
    rw [executeWord_ok hd, exec_faults hm hf, encode_of_decode hd]
    rfl

/-- Where none of R173's checks fails, a CMD write in a sound state completes outside Fault. -/
theorem executeWord_deciding_none {c : Word} {s : State} (h : Inv s) (hm : s.mode ≠ .fault)
    (hf : decidingCode c s = none) : ∃ t, executeWord c s = .next t ∧ t.mode ≠ .fault ∧ t.fcode = .none := by
  have hc : ¬ IllegalWord c := fun hc => Option.some_ne_none _ ((if_pos hc).symm.trans hf)
  obtain ⟨i, hd⟩ := exists_decode_ok.mpr hc
  rw [decidingCode_of_decode hm hd, firstFailing_checksOf hm] at hf
  obtain ⟨t, ht, hmode, hcode⟩ := exec_permitted_completes h hm hf
  exact ⟨t, (executeWord_ok hd s).trans ht, by rw [hmode]; cases i <;> simp [modeAfter], hcode⟩

/-- In Fault a CMD write is ignored, whatever its value (R176). -/
theorem executeWord_ignored {s : State} (hm : s.mode = .fault) (c : Word) : executeWord c s = .next s := by
  cases hd : decode c with
  | ok i => exact (executeWord_ok hd s).trans (exec_ignored hm i)
  | error e => exact (executeWord_error hd s).trans (illegalCommand_ignored hm)

/-- No number above R171's last code stands in STATUS. -/
theorem FaultCode.code_le (f : FaultCode) : f.code ≤ 6 := by
  cases f <;> decide

/-- Settles O26: R173's order on the raw value is the order of the checks of the command that it decodes to. -/
theorem firstFailingCheckDecides : Obligations.FirstFailingCheckDecides := by
  refine fun c s => ⟨fun hm => executeWord_ignored hm c, fun hm f hf => ⟨executeWord_deciding_some hm hf, ?_⟩,
    fun hm hf h => executeWord_deciding_none h hm hf, ?_⟩
  · rw [status_fcode, code_eq_codeNumber]
    rfl
  · rw [status_fcode]
    exact s.fcode.code_le

/-! ### Fault entry -/

/-- Settles O25: of what a CMD write can have done, only fault entry takes the block into Fault, and STATUS shows the
fields that it wrote and those that it left. -/
theorem faultEntryChangesNothingElse : Obligations.FaultEntryChangesNothingElse := by
  intro c s t hm hx ht
  rcases executeWord_outcome hx with ⟨hfault, -⟩ | ⟨-, f, hf, rfl⟩ | ⟨-, hne, -⟩
  · exact absurd hfault hm
  · exact ⟨f, hf, rfl, status_mode _, (status_fcode _).trans (code_eq_codeNumber f), status_offset _, status_rate _,
      status_delim _⟩
  · exact absurd ht hne

/-- R173's checks read no piece of the state but the mode. -/
theorem decidingCode_congr {s s' : State} (h : s.mode = s'.mode) (c : Word) : decidingCode c s = decidingCode c s' := by
  simp only [decidingCode, h]

/-- Settles O30: the permitted commands complete, and the check that decides reads the CMD value and the mode alone. -/
theorem faultsDoNotDependOnData : Obligations.FaultsDoNotDependOnData := by
  refine ⟨fun s n h hm hn => exec_permitted_completes (i := .absorb n) h (by simp [hm]) ⟨hn, hm⟩,
    fun s n h hm hn => exec_permitted_completes (i := .squeeze n) h (by simp [hm]) ⟨hn, hm⟩,
    fun c s s' h h' hmode hm => ?_⟩
  have hm' : s'.mode ≠ .fault := hmode ▸ hm
  have hsame := decidingCode_congr hmode c
  cases hf : decidingCode c s with
  | some f =>
    exact ⟨_, _, executeWord_deciding_some hm hf, executeWord_deciding_some hm' (hsame.symm.trans hf), Iff.rfl, rfl⟩
  | none =>
    obtain ⟨t, hx, hne, hcode⟩ := executeWord_deciding_none h hm hf
    obtain ⟨t', hx', hne', hcode'⟩ := executeWord_deciding_none h' hm' (hsame.symm.trans hf)
    exact ⟨t, t', hx, hx', iff_of_false hne hne', hcode.trans hcode'.symm⟩

/-! ### In Fault -/

/-- Settles O27: commands are ignored, and the rules of a DIN write and of a read hold in every mode. -/
theorem faultModeIgnoresCommands : Obligations.FaultModeIgnoresCommands := by
  refine fun s hm => ⟨fun c => (perform_write_cmd c s).trans (executeWord_ignored hm c), exec_ignored hm,
    fun v => perform_write_din v s, fun offset h h8 => ?_⟩
  rw [perform_read h h8, readRegister_eq]
  rfl

/-- Settles O28: in Fault every action but reset keeps the mode, and reset's values are R35's. -/
theorem onlyResetLeavesFault : Obligations.OnlyResetLeavesFault := by
  refine ⟨fun a s t hm hx ht => perform_out_of_fault hx hm ht, fun s t hx => ?_,
    fun s rate delim hm => exec_ignored hm _⟩
  obtain rfl := Host.Outcome.next.inj hx
  exact ⟨rfl, rfl, rfl⟩

/-- In Fault an action other than reset keeps the mode and the record of the fault (R176). -/
theorem perform_keeps_fault {a : HostAction} {s t : State} (hm : s.mode = .fault) (ha : a ≠ .reset)
    (hx : perform a s = .next t) : t.mode = .fault ∧ t.fcode = s.fcode ∧ t.fcmd = s.fcmd := by
  rcases perform_cases hx with ⟨_, -, rfl⟩ | ⟨c, -, hc⟩ | ⟨v, -, rfl⟩ | ⟨_, _, -, -, rfl⟩ | ⟨hreset, -⟩
  · exact ⟨hm, rfl, rfl⟩
  · obtain rfl := Host.Outcome.next.inj ((executeWord_ignored hm c).symm.trans hc)
    exact ⟨hm, rfl, rfl⟩
  · exact ⟨hm, rfl, rfl⟩
  · exact ⟨hm, rfl, rfl⟩
  · exact absurd hreset ha

/-- Settles O29, by induction on the host's actions, each of which starts in Fault. -/
theorem firstFaultIsKept : Obligations.FirstFaultIsKept := by
  intro as
  induction as with
  | nil =>
    intro s t hm _ hx
    obtain rfl := Host.Outcome.next.inj hx
    exact ⟨hm, rfl, rfl⟩
  | cons a as ih =>
    intro s t hm hreset hx
    obtain ⟨ha, has⟩ := not_or.mp (List.mem_cons.not.mp hreset)
    obtain ⟨u, hu, hx⟩ := andThen_eq_next.mp hx
    obtain ⟨hum, hucode, hucmd⟩ := perform_keeps_fault hm (Ne.symm ha) hu
    obtain ⟨htm, htcode, htcmd⟩ := ih u t hum has hx
    exact ⟨htm, htcode.trans hucode, htcmd.trans hucmd⟩

/-! ### Safe runs -/

/-- Host actions in a row keep a sound state sound (R33). -/
theorem performAll_keeps_inv {as : List HostAction} {s t : State} (h : Inv s) (hx : performAll as s = .next t) :
    Inv t := by
  induction as generalizing s with
  | nil => exact Host.Outcome.next.inj hx ▸ h
  | cons a as ih =>
    obtain ⟨u, hu, hx⟩ := andThen_eq_next.mp hx
    exact ih (perform_keeps_inv h hu) hx

/-- Settles O59: a fault recorded on the way would leave the block in Fault, and so be recorded at the end. -/
theorem safeRunsMetNoFault : Obligations.SafeRunsMetNoFault := by
  rintro as bs s t h hreset ⟨hx, htcode⟩
  rw [performAll_append] at hx
  obtain ⟨u, hu, hx⟩ := andThen_eq_next.mp hx
  have hucode : u.fcode = .none := by
    by_cases hum : u.mode = .fault
    · obtain ⟨-, hkept, -⟩ := firstFaultIsKept bs u t hum (fun hb => hreset (List.mem_append_right as hb)) hx
      exact hkept.symm.trans htcode
    · exact (inv_no_fault (performAll_keeps_inv h hu) hum).1
  exact ⟨u, ⟨hu, hucode⟩, ⟨hx, htcode⟩⟩

/-! ### Platforms -/

/-- Going on with one engine does to it what `f` does, and leaves every other engine (R183). -/
theorem onEngine_next {k : Nat} {p q : Platform} {f : State → Host.Outcome State Fault Refusal}
    (h : Platform.onEngine k p f = .next q) :
    ∃ s t, p[k]? = some s ∧ f s = .next t ∧ q[k]? = some t ∧ q.length = p.length ∧ ∀ j, j ≠ k → q[j]? = p[j]? := by
  unfold Platform.onEngine at h
  split at h
  · simp at h
  · next s hs =>
    obtain ⟨t, ht, h⟩ := andThen_eq_next.mp h
    obtain rfl := Host.Outcome.next.inj h
    obtain ⟨hk, -⟩ := List.getElem?_eq_some_iff.mp hs
    exact ⟨s, t, hs, ht, List.getElem?_set_self hk, List.length_set, fun j hj => List.getElem?_set_ne (Ne.symm hj)⟩

/-- The host address of a register offset lies in its engine's window (R56). -/
theorem windowOffset_baseAddr {offset : Nat} (h : offset < 0x40) (k : Nat) :
    windowOffset k (Config.baseAddr k + offset) = some offset := by
  rw [windowOffset, if_pos (by omega), Nat.add_sub_cancel_left]

/-- Settles O57: a step and the two bus accesses go on with the one engine. -/
theorem platformEnginesAreIndependent : Obligations.PlatformEnginesAreIndependent := by
  refine fun k p q => ⟨onEngine_next, fun offset width v ho hx => ?_, fun offset width ho hx => ?_⟩
  · rw [Platform.busWrite, windowOffset_baseAddr ho] at hx
    exact onEngine_next hx
  · rw [Platform.busRead, windowOffset_baseAddr ho] at hx
    exact onEngine_next hx

end Sys2Proof.Machine
end

section
/-! PROOFS of the family 70_reset_and_hazards: reset from any state (R200). -/

namespace Sys2Proof.Machine

/-- Reset completes from every state: it has no check, and the mode does not hold it up (R177, R200). -/
theorem perform_reset (s : State) : perform .reset s = .next (resetBlock s) := rfl

/-- Settles O10: every field of the state that reset leaves has its value in R35, Fault being no exception. -/
theorem resetSetsEverything : Obligations.ResetSetsEverything := fun s =>
  ⟨resetBlock s, perform_reset s, resetBlock_S s, resetBlock_offset s, resetBlock_rate s, resetBlock_delim s,
    resetBlock_mode s, resetBlock_din s, resetBlock_dout s, resetBlock_fcode s, resetBlock_fcmd s⟩

end Sys2Proof.Machine
end
